-- ==== Sys2Proof/Word.lean ====
section
/-! DEFINITION. The two word types of the machine (00_scope.md R5): bytes of memory and opcodes, and 16-bit registers,
program counter and operands. -/

namespace Sys2Proof

/-- A byte of memory, an opcode, or a register index byte: the `u8` of 00_scope.md section 5. -/
abbrev Byte := BitVec 8

/-- A register, the program counter, an address or a resolved operand: the `u16` of 00_scope.md R5. -/
abbrev Word := BitVec 16

end Sys2Proof
end

