-- ==== Sys2Proof/Config.lean ====
section
/-! DEFINITION. What is fixed for one machine (the parameters of 00_scope.md R6 that are not the opcode table, which stands in
Sys2Proof/Decode.lean), the closed map of interrupt services, and the free values: what the collaborators answer. -/

namespace Sys2Proof

/-- The eleven interrupt services, in the order of their numbers 0 to 10 (60_exceptions.md R195). -/
inductive Service where
  | info | gpioCfg | gpioSet | gpioGet | videoPutpixel | videoGetpixel
  | videoFill | videoLine | videoCircle | videoPrint | videoUpdate
  deriving DecidableEq, Repr

/-- `ENTRY` of 00_scope.md R6: the PC after reset and load, at its default 0x0000 (log 1). -/
def Config.entry : Word := 0x0000

/-- `OPC_INT_REG` of 00_scope.md R6: the opcode of `int` with a register source, at its default 0x05 (log 2). -/
def Config.opcIntReg : Byte := 0x05

/-- FREE VALUE (U13, D22; log 3): what the input source answers to the n-th collaborator request of a run, `none` or one
byte. It has no body, so nothing can be proved of it. -/
opaque Config.freeInput : Nat → Option Byte

/-- FREE VALUE (U13, D23; log 3): what a service answers, `none` or a return value, as the n-th collaborator request of a
run, with the ten register values it is handed (60_exceptions.md R196). It has no body. -/
opaque Config.freeService : Nat → Service → Vector Word 10 → Option Word

end Sys2Proof
end

