-- ==== Sys2Proof/Syntax.lean ====
section
/-! DEFINITION. Addressing modes, mnemonics and descriptors (30_encoding.md R57, R61, R70), operands as they stand in an
instruction (R52, R53), and `Instr`: one constructor for each of the 40 rows of spec/opcode_table.json (R62). -/

namespace Sys2Proof

/-- The closed set of addressing-mode tags (30_encoding.md R57). -/
inductive Mode where
  | none | register | immediate | memory | memoryPointer
  deriving DecidableEq, Repr

/-- The 24 mnemonics (30_encoding.md R61). -/
inductive Mnemonic where
  | hlt | nop | stdout | stdin | int | cmp | mov
  | inc | dec | add | sub | mul | div | shl | shr
  | jmp | je | jne | jz | jnz | jl | jle | jg | jge
  deriving DecidableEq, Repr

/-- The destination modes that have a length and a writeback: every mode but `immediate` (30_encoding.md R57). -/
inductive DstMode where
  | none | register | memory | memoryPointer
  deriving DecidableEq, Repr

/-- A descriptor as a table's writer gives it, both tags drawn from the whole set (30_encoding.md R57, R70). -/
structure RawDescriptor where
  mnemonic : Mnemonic
  srcMode : Mode
  dstMode : Mode
  deriving DecidableEq, Repr

/-- An instruction descriptor: what an occupied slot of a well-formed opcode table holds (30_encoding.md R57, R70). -/
structure Descriptor where
  mnemonic : Mnemonic
  srcMode : Mode
  dstMode : DstMode
  deriving DecidableEq, Repr

/-- A destination operand with its bytes read (30_encoding.md R52): no operand, an index byte, a literal address, or the
address of a pointer cell. -/
inductive DstOperand where
  | none
  | register (index : Byte)
  | memory (address : Word)
  | memoryPointer (cell : Word)
  deriving DecidableEq, Repr

/-- A source operand with its bytes read (30_encoding.md R53). -/
inductive SrcOperand where
  | none
  | register (index : Byte)
  | immediate (value : Word)
  | memory (address : Word)
  | memoryPointer (cell : Word)
  deriving DecidableEq, Repr

/-- The instructions, one constructor a row of the opcode table (30_encoding.md R62), in the table's order. An index byte is
kept whole, 0x00 to 0xFF, because the whole byte is checked when the instruction executes (R55). -/
inductive Instr where
  | hlt
  | nop
  | stdout
  | stdin
  | intImm (number : Word)
  | intReg (s : Byte)
  | cmpImm (imm : Word)
  | cmpReg (s : Byte)
  | movRegImm (d : Byte) (imm : Word)
  | movRegReg (d s : Byte)
  | movRegMem (d : Byte) (a : Word)
  | movRegPtr (d : Byte) (p : Word)
  | movMemReg (a : Word) (s : Byte)
  | movPtrReg (p : Word) (s : Byte)
  | inc (d s : Byte)
  | dec (d s : Byte)
  | add (d s : Byte)
  | sub (d s : Byte)
  | mul (d s : Byte)
  | div (d s : Byte)
  | shl (d s : Byte)
  | shr (d s : Byte)
  | jmpImm (target : Word)
  | jmpReg (s : Byte)
  | jeImm (target : Word)
  | jeReg (s : Byte)
  | jneImm (target : Word)
  | jneReg (s : Byte)
  | jzImm (target : Word)
  | jzReg (s : Byte)
  | jnzImm (target : Word)
  | jnzReg (s : Byte)
  | jlImm (target : Word)
  | jlReg (s : Byte)
  | jleImm (target : Word)
  | jleReg (s : Byte)
  | jgImm (target : Word)
  | jgReg (s : Byte)
  | jgeImm (target : Word)
  | jgeReg (s : Byte)
  deriving DecidableEq, Repr

/-- The mnemonic and the two operands an instruction was written with. -/
structure Form where
  mnemonic : Mnemonic
  dst : DstOperand
  src : SrcOperand
  deriving DecidableEq, Repr

/-- The row of 30_encoding.md R62 that a constructor stands for, with its operands in place. -/
def Instr.form : Instr → Form
  | .hlt => ⟨.hlt, .none, .none⟩
  | .nop => ⟨.nop, .none, .none⟩
  | .stdout => ⟨.stdout, .none, .none⟩
  | .stdin => ⟨.stdin, .none, .none⟩
  | .intImm n => ⟨.int, .none, .immediate n⟩
  | .intReg s => ⟨.int, .none, .register s⟩
  | .cmpImm v => ⟨.cmp, .none, .immediate v⟩
  | .cmpReg s => ⟨.cmp, .none, .register s⟩
  | .movRegImm d v => ⟨.mov, .register d, .immediate v⟩
  | .movRegReg d s => ⟨.mov, .register d, .register s⟩
  | .movRegMem d a => ⟨.mov, .register d, .memory a⟩
  | .movRegPtr d p => ⟨.mov, .register d, .memoryPointer p⟩
  | .movMemReg a s => ⟨.mov, .memory a, .register s⟩
  | .movPtrReg p s => ⟨.mov, .memoryPointer p, .register s⟩
  | .inc d s => ⟨.inc, .register d, .register s⟩
  | .dec d s => ⟨.dec, .register d, .register s⟩
  | .add d s => ⟨.add, .register d, .register s⟩
  | .sub d s => ⟨.sub, .register d, .register s⟩
  | .mul d s => ⟨.mul, .register d, .register s⟩
  | .div d s => ⟨.div, .register d, .register s⟩
  | .shl d s => ⟨.shl, .register d, .register s⟩
  | .shr d s => ⟨.shr, .register d, .register s⟩
  | .jmpImm a => ⟨.jmp, .none, .immediate a⟩
  | .jmpReg s => ⟨.jmp, .none, .register s⟩
  | .jeImm a => ⟨.je, .none, .immediate a⟩
  | .jeReg s => ⟨.je, .none, .register s⟩
  | .jneImm a => ⟨.jne, .none, .immediate a⟩
  | .jneReg s => ⟨.jne, .none, .register s⟩
  | .jzImm a => ⟨.jz, .none, .immediate a⟩
  | .jzReg s => ⟨.jz, .none, .register s⟩
  | .jnzImm a => ⟨.jnz, .none, .immediate a⟩
  | .jnzReg s => ⟨.jnz, .none, .register s⟩
  | .jlImm a => ⟨.jl, .none, .immediate a⟩
  | .jlReg s => ⟨.jl, .none, .register s⟩
  | .jleImm a => ⟨.jle, .none, .immediate a⟩
  | .jleReg s => ⟨.jle, .none, .register s⟩
  | .jgImm a => ⟨.jg, .none, .immediate a⟩
  | .jgReg s => ⟨.jg, .none, .register s⟩
  | .jgeImm a => ⟨.jge, .none, .immediate a⟩
  | .jgeReg s => ⟨.jge, .none, .register s⟩

end Sys2Proof
end

