-- ==== Sys2Proof/WellFormed.lean ====
section
/-! DEFINITION. When an instruction names registers that exist (30_encoding.md R55). An ill-formed instruction still decodes
and still executes: its meaning takes the RegisterIndex fault (log 10). -/

namespace Sys2Proof

/-- An index byte that names one of the registers `R[0]` to `R[9]` (30_encoding.md R55). -/
def indexOk (b : Byte) : Bool := decide (b.toNat ≤ 9)

/-- The destination names an existing register, where it names one. -/
def DstOperand.wellFormed : DstOperand → Bool
  | .none => true
  | .register i => indexOk i
  | .memory _ => true
  | .memoryPointer _ => true

/-- The source names an existing register, where it names one. -/
def SrcOperand.wellFormed : SrcOperand → Bool
  | .none => true
  | .register i => indexOk i
  | .immediate _ => true
  | .memory _ => true
  | .memoryPointer _ => true

/-- Both checks of an instruction: its destination and its source index byte, where it has them. -/
def Instr.wellFormed (i : Instr) : Bool := i.form.dst.wellFormed && i.form.src.wellFormed

end Sys2Proof
end

