-- ==== Sys2Proof/Decode.lean ====
section
/-! DEFINITION. Byte order, the opcode table (30_encoding.md R62, R70), instruction lengths (R51), the decoder from bytes to
`Instr`, total on any bytes and rejecting by name, and after it the encoder and the assembler's lookup (R72). -/

namespace Sys2Proof

/-- Two bytes as a 16-bit quantity, the first (the lower address) the more significant (20_memory.md R33). -/
def beWord (hi lo : Byte) : Word := hi ++ lo

/-- `w[15:8]`, the byte that stands at the lower address (20_memory.md R32). -/
def hiByte (w : Word) : Byte := w.extractLsb' 8 8

/-- `w[7:0]` (20_memory.md R32). -/
def loByte (w : Word) : Byte := w.extractLsb' 0 8

/-- A 16-bit operand as its two bytes in address order (30_encoding.md R54). -/
def wordBytes (w : Word) : List Byte := [hiByte w, loByte w]

/-! ## Lengths -/

/-- Bytes of a destination operand (30_encoding.md R51). -/
def dlen : DstMode → Nat
  | .none => 0
  | .register => 1
  | .memory => 2
  | .memoryPointer => 2

/-- Bytes of a source operand (30_encoding.md R51). -/
def slen : Mode → Nat
  | .none => 0
  | .register => 1
  | .immediate => 2
  | .memory => 2
  | .memoryPointer => 2

/-- `ILEN` of a mode pair (30_encoding.md R51). -/
def ilen (dst : DstMode) (src : Mode) : Nat := 1 + dlen dst + slen src

/-- The mode of a destination operand. -/
def DstOperand.mode : DstOperand → DstMode
  | .none => .none
  | .register _ => .register
  | .memory _ => .memory
  | .memoryPointer _ => .memoryPointer

/-- The mode of a source operand. -/
def SrcOperand.mode : SrcOperand → Mode
  | .none => .none
  | .register _ => .register
  | .immediate _ => .immediate
  | .memory _ => .memory
  | .memoryPointer _ => .memoryPointer

/-- The descriptor of an instruction's row (30_encoding.md R62). -/
def Instr.descriptor (i : Instr) : Descriptor := ⟨i.form.mnemonic, i.form.src.mode, i.form.dst.mode⟩

/-- `ILEN` of an instruction (30_encoding.md R51). -/
def Instr.length (i : Instr) : Nat := ilen i.form.dst.mode i.form.src.mode

/-! ## The opcode table -/

/-- An opcode table: its occupied slots; every other slot is the empty descriptor (30_encoding.md R70). -/
abbrev OpTab := List (Byte × Descriptor)

/-- `lookupByOpcode`: the descriptor in a slot, or `none` for the empty descriptor (30_encoding.md R71). -/
def OpTab.lookup (T : OpTab) (op : Byte) : Option Descriptor := (T.find? (fun r => r.1 == op)).map (·.2)

/-- A raw descriptor as a well-formed one; none when its destination mode is `immediate` (30_encoding.md R57). -/
def RawDescriptor.check : RawDescriptor → Option Descriptor
  | ⟨m, s, .none⟩ => some ⟨m, s, .none⟩
  | ⟨m, s, .register⟩ => some ⟨m, s, .register⟩
  | ⟨_, _, .immediate⟩ => none
  | ⟨m, s, .memory⟩ => some ⟨m, s, .memory⟩
  | ⟨m, s, .memoryPointer⟩ => some ⟨m, s, .memoryPointer⟩

/-- Building a table from rows: refused (none) when a row's destination mode is `immediate` (30_encoding.md R57) or when two
rows have one opcode (93_implementation_defined.md U8, U9). -/
def OpTab.build : List (Byte × RawDescriptor) → Option OpTab
  | [] => some []
  | (op, raw) :: rows =>
    match raw.check, OpTab.build rows with
    | some d, some T => if (OpTab.lookup T op).isSome then none else some ((op, d) :: T)
    | _, _ => none

/-- The default `OPTAB`: the 40 rows of 30_encoding.md R62 (log 2), each written mnemonic, source mode, destination mode. -/
def defaultOpTab : OpTab :=
  [
    (0x00, ⟨.hlt, .none, .none⟩),
    (0x01, ⟨.nop, .none, .none⟩),
    (0x02, ⟨.stdout, .none, .none⟩),
    (0x03, ⟨.stdin, .none, .none⟩),
    (0x04, ⟨.int, .immediate, .none⟩),
    (Config.opcIntReg, ⟨.int, .register, .none⟩),
    (0x07, ⟨.cmp, .immediate, .none⟩),
    (0x08, ⟨.cmp, .register, .none⟩),
    (0x10, ⟨.mov, .immediate, .register⟩),
    (0x11, ⟨.mov, .register, .register⟩),
    (0x12, ⟨.mov, .memory, .register⟩),
    (0x13, ⟨.mov, .memoryPointer, .register⟩),
    (0x14, ⟨.mov, .register, .memory⟩),
    (0x15, ⟨.mov, .register, .memoryPointer⟩),
    (0x20, ⟨.inc, .register, .register⟩),
    (0x21, ⟨.dec, .register, .register⟩),
    (0x22, ⟨.add, .register, .register⟩),
    (0x23, ⟨.sub, .register, .register⟩),
    (0x24, ⟨.mul, .register, .register⟩),
    (0x25, ⟨.div, .register, .register⟩),
    (0x26, ⟨.shl, .register, .register⟩),
    (0x27, ⟨.shr, .register, .register⟩),
    (0xE0, ⟨.jmp, .immediate, .none⟩),
    (0xE1, ⟨.jmp, .register, .none⟩),
    (0xE2, ⟨.je, .immediate, .none⟩),
    (0xE3, ⟨.je, .register, .none⟩),
    (0xE4, ⟨.jne, .immediate, .none⟩),
    (0xE5, ⟨.jne, .register, .none⟩),
    (0xE6, ⟨.jz, .immediate, .none⟩),
    (0xE7, ⟨.jz, .register, .none⟩),
    (0xE8, ⟨.jnz, .immediate, .none⟩),
    (0xE9, ⟨.jnz, .register, .none⟩),
    (0xEA, ⟨.jl, .immediate, .none⟩),
    (0xEB, ⟨.jl, .register, .none⟩),
    (0xEC, ⟨.jle, .immediate, .none⟩),
    (0xED, ⟨.jle, .register, .none⟩),
    (0xEE, ⟨.jg, .immediate, .none⟩),
    (0xEF, ⟨.jg, .register, .none⟩),
    (0xF0, ⟨.jge, .immediate, .none⟩),
    (0xF1, ⟨.jge, .register, .none⟩)
  ]

/-! ## The decoder -/

/-- The nine formats in use (30_encoding.md R56), each with the instruction its operands make: `N` no operand, `R` an index
byte, `I` an immediate, `M` an address, `P` the address of a pointer cell; destination letter first. -/
inductive Shape where
  | nn (i : Instr)
  | nr (f : Byte → Instr)
  | ni (f : Word → Instr)
  | rr (f : Byte → Byte → Instr)
  | ri (f : Byte → Word → Instr)
  | rm (f : Byte → Word → Instr)
  | rp (f : Byte → Word → Instr)
  | mr (f : Word → Byte → Instr)
  | pr (f : Word → Byte → Instr)

/-- The length of a format (30_encoding.md R56). -/
def Shape.length : Shape → Nat
  | .nn _ => 1
  | .nr _ => 2
  | .ni _ => 3
  | .rr _ => 3
  | .ri _ => 4
  | .rm _ => 4
  | .rp _ => 4
  | .mr _ => 4
  | .pr _ => 4

/-- Opcode byte to format and instruction (30_encoding.md R62). -/
def decodeTable : List (Byte × Shape) :=
  [
    (0x00, .nn .hlt),
    (0x01, .nn .nop),
    (0x02, .nn .stdout),
    (0x03, .nn .stdin),
    (0x04, .ni .intImm),
    (Config.opcIntReg, .nr .intReg),
    (0x07, .ni .cmpImm),
    (0x08, .nr .cmpReg),
    (0x10, .ri .movRegImm),
    (0x11, .rr .movRegReg),
    (0x12, .rm .movRegMem),
    (0x13, .rp .movRegPtr),
    (0x14, .mr .movMemReg),
    (0x15, .pr .movPtrReg),
    (0x20, .rr .inc),
    (0x21, .rr .dec),
    (0x22, .rr .add),
    (0x23, .rr .sub),
    (0x24, .rr .mul),
    (0x25, .rr .div),
    (0x26, .rr .shl),
    (0x27, .rr .shr),
    (0xE0, .ni .jmpImm),
    (0xE1, .nr .jmpReg),
    (0xE2, .ni .jeImm),
    (0xE3, .nr .jeReg),
    (0xE4, .ni .jneImm),
    (0xE5, .nr .jneReg),
    (0xE6, .ni .jzImm),
    (0xE7, .nr .jzReg),
    (0xE8, .ni .jnzImm),
    (0xE9, .nr .jnzReg),
    (0xEA, .ni .jlImm),
    (0xEB, .nr .jlReg),
    (0xEC, .ni .jleImm),
    (0xED, .nr .jleReg),
    (0xEE, .ni .jgImm),
    (0xEF, .nr .jgReg),
    (0xF0, .ni .jgeImm),
    (0xF1, .nr .jgeReg)
  ]

/-- The row an opcode byte selects, none for an unregistered opcode (30_encoding.md R63, R71). -/
def shapeOf (op : Byte) : Option Shape := (decodeTable.find? (fun r => r.1 == op)).map (·.2)

/-- Why bytes do not decode. -/
inductive DecodeError where
  /-- There is no byte to read an opcode from. -/
  | noBytes
  /-- The opcode selects the empty descriptor (30_encoding.md R63). -/
  | unregisteredOpcode (op : Byte)
  /-- Fewer bytes stand after the opcode than its format needs (40_execution_cycle.md R83). -/
  | truncated (op : Byte)
  deriving DecidableEq, Repr

/-- The operand bytes of a format, destination first (30_encoding.md R50, R56); the bytes left over come back too. -/
def Shape.read (op : Byte) : Shape → List Byte → Except DecodeError (Instr × List Byte)
  | .nn i, bs => .ok (i, bs)
  | .nr f, s :: bs => .ok (f s, bs)
  | .ni f, h :: l :: bs => .ok (f (beWord h l), bs)
  | .rr f, d :: s :: bs => .ok (f d s, bs)
  | .ri f, d :: h :: l :: bs => .ok (f d (beWord h l), bs)
  | .rm f, d :: h :: l :: bs => .ok (f d (beWord h l), bs)
  | .rp f, d :: h :: l :: bs => .ok (f d (beWord h l), bs)
  | .mr f, h :: l :: s :: bs => .ok (f (beWord h l) s, bs)
  | .pr f, h :: l :: s :: bs => .ok (f (beWord h l) s, bs)
  | _, _ => .error (.truncated op)

/-- The decoder: total on any bytes (30_encoding.md R71), with the bytes after the instruction. -/
def decode : List Byte → Except DecodeError (Instr × List Byte)
  | [] => .error .noBytes
  | op :: bs =>
    match shapeOf op with
    | none => .error (.unregisteredOpcode op)
    | some shape => shape.read op bs

/-- The length of the longest instruction of the default table (30_encoding.md R62). -/
def longestInstr : Nat := 4

/-- An instruction whose bits are `w`, as bytes in address order: byte `k` is bits `8k+7` to `8k` of `w`, every bit at or above
`nbits` is 0, up to the longest instruction (log 8). -/
def tableBytes (nbits w : Nat) : List Byte :=
  (List.range longestInstr).map (fun k => BitVec.ofNat 8 ((w % 2 ^ nbits) / 2 ^ (8 * k)))

/-- The instruction the decoder reads from an instruction whose bits are `w`, numbered as spec/opcode_table.json numbers
them. -/
def decodeTableWord (nbits w : Nat) : Option Instr :=
  match decode (tableBytes nbits w) with
  | .ok (i, _) => some i
  | .error _ => none

/-! ## The encoder -/

/-- The bytes of an instruction (30_encoding.md R50, R56, R62): opcode, destination operand, source operand. -/
def encode : Instr → List Byte
  | .hlt => [0x00]
  | .nop => [0x01]
  | .stdout => [0x02]
  | .stdin => [0x03]
  | .intImm v => 0x04 :: wordBytes v
  | .intReg s => [Config.opcIntReg, s]
  | .cmpImm v => 0x07 :: wordBytes v
  | .cmpReg s => [0x08, s]
  | .movRegImm d v => 0x10 :: d :: wordBytes v
  | .movRegReg d s => [0x11, d, s]
  | .movRegMem d a => 0x12 :: d :: wordBytes a
  | .movRegPtr d p => 0x13 :: d :: wordBytes p
  | .movMemReg a s => 0x14 :: (wordBytes a ++ [s])
  | .movPtrReg p s => 0x15 :: (wordBytes p ++ [s])
  | .inc d s => [0x20, d, s]
  | .dec d s => [0x21, d, s]
  | .add d s => [0x22, d, s]
  | .sub d s => [0x23, d, s]
  | .mul d s => [0x24, d, s]
  | .div d s => [0x25, d, s]
  | .shl d s => [0x26, d, s]
  | .shr d s => [0x27, d, s]
  | .jmpImm v => 0xE0 :: wordBytes v
  | .jmpReg s => [0xE1, s]
  | .jeImm v => 0xE2 :: wordBytes v
  | .jeReg s => [0xE3, s]
  | .jneImm v => 0xE4 :: wordBytes v
  | .jneReg s => [0xE5, s]
  | .jzImm v => 0xE6 :: wordBytes v
  | .jzReg s => [0xE7, s]
  | .jnzImm v => 0xE8 :: wordBytes v
  | .jnzReg s => [0xE9, s]
  | .jlImm v => 0xEA :: wordBytes v
  | .jlReg s => [0xEB, s]
  | .jleImm v => 0xEC :: wordBytes v
  | .jleReg s => [0xED, s]
  | .jgImm v => 0xEE :: wordBytes v
  | .jgReg s => [0xEF, s]
  | .jgeImm v => 0xF0 :: wordBytes v
  | .jgeReg s => [0xF1, s]

/-- All 256 slots of a table, in ascending order (30_encoding.md R70). -/
def allOpcodes : List Byte := (List.range 256).map (BitVec.ofNat 8)

/-- `lookupByMnemonic`: a linear scan of all 256 slots for one whose descriptor has exactly this mnemonic and these modes; none
is the encode-time failure, which is never opcode 0x00 and never HALT (30_encoding.md R72). -/
def OpTab.lookupByMnemonic (T : OpTab) (m : Mnemonic) (src : Mode) (dst : DstMode) : Option Byte :=
  allOpcodes.find? (fun op => T.lookup op == some ⟨m, src, dst⟩)

end Sys2Proof
end

