-- ==== Sys2Proof/Machine/State.lean ====
section
/-! DEFINITION. The machine's state as plain data (10_state.md), the model's record of its collaborators, the reasons the model
itself can stop (none of the machine's own), and the state after reset (R21). -/

namespace Sys2Proof.Machine

open Sys2Proof

/-- The eight flags, independent booleans, in the source's order (10_state.md R15, R23). -/
structure Flags where
  halt : Bool
  greater : Bool
  less : Bool
  equal : Bool
  zero : Bool
  data : Bool
  overflow : Bool
  underflow : Bool
  deriving DecidableEq, Repr

/-- What the `FAULT` register holds (10_state.md R17): the first and only fault since reset. -/
inductive FaultKind where
  /-- No fault has happened since reset. -/
  | none
  /-- The opcode byte at `PC` selects the empty descriptor. -/
  | unregisteredOpcode
  /-- `div` with a zero source. -/
  | divideByZero
  /-- A byte access at an address above 0xFFFF. -/
  | addressRange
  /-- A register index byte above 9. -/
  | registerIndex
  deriving DecidableEq, Repr

/-- One transaction with a collaborator (10_state.md R22). -/
inductive Event where
  /-- `stdout` handed this byte to the output sink. -/
  | out (b : Byte)
  /-- `stdin` made one attempt and got this answer. -/
  | inp (answer : Option Byte)
  /-- `int` called this service with these register values and got this answer. -/
  | call (service : Service) (regs : Vector Word 10) (answer : Option Word)
  deriving DecidableEq, Repr

/-- The model's record of the collaborators, which are outside the block (10_state.md R22; log 3, log 5). `trace` is what has
happened, oldest first. `inputs` and `answers` are what the environment has already fixed to answer next, oldest first; past
their end an answer is a free value of Config, drawn with the count `draws`. -/
structure Ports where
  trace : List Event
  draws : Nat
  inputs : List (Option Byte)
  answers : List (Option Word)
  deriving DecidableEq, Repr

/-- Memory as address and byte pairs (20_memory.md R30); an unlisted address reads 0x00, its reset content (10_state.md R21;
log 7). The canonical form is `Memory.wf` of Machine/Ops.lean. -/
abbrev Memory := List Host.Cell

/-- The whole state: the architectural state of 10_state.md, and the record of the collaborators. -/
structure State where
  regs : Vector Word 10
  pc : Word
  flags : Flags
  fault : FaultKind
  mem : Memory
  ports : Ports
  deriving DecidableEq, Repr

/-- Reasons the model stops with a fault of its own: there are none. Every fatal condition of this machine is a fault that the
spec describes and the model takes as a next state, with HALT and FAULT written (60_exceptions.md R190, R191; log 6); nobody
raises a machine fault, which is safe: no behaviour of the hardware is cut off. -/
inductive Fault : Type
  deriving DecidableEq, Repr

/-- Reasons the model gives an instruction no meaning. -/
inductive Refusal where
  /-- Raised by an arm of `exec` whose instruction has no meaning yet (safe: nothing is claimed of it). No arm raises it. -/
  | notModelled (mnemonic : String)
  deriving DecidableEq, Repr

/-- All eight flags false, as reset leaves them (10_state.md R21). -/
def Flags.reset : Flags := ⟨false, false, false, false, false, false, false, false⟩

/-- The record of the collaborators before anything has happened (DESIGN CHOICE, log 5). -/
def Ports.reset : Ports := ⟨[], 0, [], []⟩

/-- The machine right after reset (10_state.md R21): registers and flags zero, `PC = ENTRY`, `FAULT = None`, memory all zero,
which is memory with nothing listed. -/
def State.reset : State where
  regs := Vector.replicate 10 0x0000
  pc := Config.entry
  flags := Flags.reset
  fault := .none
  mem := []
  ports := Ports.reset

end Sys2Proof.Machine
end

