-- ==== Sys2Proof/Machine/Ops.lean ====
section
/-! DEFINITION. The named operations: registers, memory, the collaborator ports, and taking a fault (60_exceptions.md R191),
the machine's one exception entry; there is no return from it (R193). -/

namespace Sys2Proof.Machine

open Sys2Proof

/-- `n mod 65536`, for any integer `n` (00_scope.md section 5). -/
def trunc16 (n : Int) : Word := BitVec.ofInt 16 n

/-! ## Updates of one field -/

/-- The state with another program counter. -/
def State.setPc (s : State) (pc : Word) : State := { s with pc := pc }

/-- The state with other flags. -/
def State.setFlags (s : State) (f : Flags) : State := { s with flags := f }

/-- The state with other memory. -/
def State.setMem (s : State) (m : Memory) : State := { s with mem := m }

/-- The state with another record of the collaborators. -/
def State.setPorts (s : State) (p : Ports) : State := { s with ports := p }

/-! ## Registers -/

/-- `R[i]` (10_state.md R10). -/
def State.reg (s : State) (i : Fin 10) : Word := s.regs[i]

/-- `R[i] <- v`; no other register changes (10_state.md R10). -/
def State.setReg (s : State) (i : Fin 10) (v : Word) : State := { s with regs := s.regs.set i v }

/-- A register index byte as a register, or the fault of an index above 9: the whole byte counts (30_encoding.md R55). -/
def regIndex (b : Byte) : Except FaultKind (Fin 10) :=
  if h : b.toNat < 10 then .ok ⟨b.toNat, h⟩ else .error .registerIndex

/-! ## Memory -/

/-- What an address that memory does not list reads as: reset zeroes memory (10_state.md R21). -/
def unlistedByte : Byte := 0x00

/-- The byte at an address. -/
def Memory.read : Memory → Nat → Byte
  | [], _ => unlistedByte
  | (k, v) :: m, a => if k = a then v else Memory.read m a

/-- Memory with one byte written, in canonical form again: an entry that would equal an unlisted byte is not kept. -/
def Memory.write : Memory → Nat → Byte → Memory
  | [], a, b => if b = unlistedByte then [] else [(a, b)]
  | (k, v) :: m, a, b =>
    if a < k then (if b = unlistedByte then (k, v) :: m else (a, b) :: (k, v) :: m)
    else if a = k then (if b = unlistedByte then m else (a, b) :: m)
    else (k, v) :: Memory.write m a b

/-- The canonical form: addresses strictly rising, all below 65536 (20_memory.md R30), no entry equal to an unlisted byte. -/
abbrev Memory.wf (m : Memory) : Prop :=
  m.Pairwise (fun x y => x.1 < y.1) ∧ ∀ c ∈ m, c.1 < 65536 ∧ c.2 ≠ unlistedByte

/-- `MemRead(addr, 1)` (20_memory.md R31). -/
def memRead1 (s : State) (addr : Nat) : Except FaultKind Byte :=
  if addr > 0xFFFF then .error .addressRange else .ok (s.mem.read addr)

/-- `MemRead(addr, 2)`, big-endian (20_memory.md R31, R33). -/
def memRead2 (s : State) (addr : Nat) : Except FaultKind Word :=
  if addr + 1 > 0xFFFF then .error .addressRange
  else .ok (beWord (s.mem.read addr) (s.mem.read (addr + 1)))

/-- `MemWrite(addr, 2, v)`, big-endian, the machine's only store (20_memory.md R32, R33). -/
def memWrite2 (s : State) (addr : Nat) (v : Word) : Except FaultKind State :=
  if addr + 1 > 0xFFFF then .error .addressRange
  else .ok (s.setMem ((s.mem.write addr (hiByte v)).write (addr + 1) (loByte v)))

/-- `n` bytes from an address on, in ascending order. -/
def Memory.readBytes (m : Memory) (a : Nat) : Nat → List Byte
  | 0 => []
  | n + 1 => m.read a :: Memory.readBytes m (a + 1) n

/-- Bytes written one after the other from an address on, those above 0xFFFF left out: no such byte exists. -/
def Memory.writeBytes (m : Memory) (a : Nat) : List Byte → Memory
  | [] => m
  | b :: bs => if a > 0xFFFF then m else Memory.writeBytes (m.write a b) (a + 1) bs

/-! ## The collaborator ports (60_exceptions.md R201) -/

/-- `OutByte(b)`: the output sink takes the byte and answers nothing (41_system_io.md R102). -/
def Ports.outByte (p : Ports) (b : Byte) : Ports := { p with trace := p.trace ++ [.out b] }

/-- The answer to the next input attempt: what the environment has fixed, else a free value (log 3). -/
def Ports.nextInput (p : Ports) : Option Byte :=
  match p.inputs with
  | a :: _ => a
  | [] => Config.freeInput p.draws

/-- `InByte()`: one attempt, recorded with its answer (41_system_io.md R103). -/
def Ports.inByte (p : Ports) : Ports :=
  { p with trace := p.trace ++ [.inp p.nextInput], draws := p.draws + 1, inputs := p.inputs.tail }

/-- The answer of a service to the next call: what the environment has fixed, else a free value (log 3). -/
def Ports.nextAnswer (p : Ports) (n : Service) (regs : Vector Word 10) : Option Word :=
  match p.answers with
  | a :: _ => a
  | [] => Config.freeService p.draws n regs

/-- `Service[n](regs)`: one call, recorded with its answer (42_int.md R110, 60_exceptions.md R196). -/
def Ports.callService (p : Ports) (n : Service) (regs : Vector Word 10) : Ports :=
  { p with trace := p.trace ++ [.call n regs (p.nextAnswer n regs)], draws := p.draws + 1, answers := p.answers.tail }

/-! ## Faults -/

/-- The code of a fault kind (10_state.md R17). -/
def FaultKind.code : FaultKind → Nat
  | .none => 0
  | .unregisteredOpcode => 1
  | .divideByZero => 2
  | .addressRange => 3
  | .registerIndex => 4

/-- `raise Fault(k)`: HALT and FAULT are written and nothing else, so `PC` still addresses the opcode (60_exceptions.md R191).
Control goes nowhere: there is no handler and no return (R193). -/
def State.raiseFault (s : State) (k : FaultKind) : State := { s with flags := { s.flags with halt := true }, fault := k }

/-- What an attempt comes to: the state it reaches, or the state before it with the fault taken, since no check of an
instruction commits anything (40_execution_cycle.md R81, R93). -/
def settle (s : State) : Except FaultKind State → State
  | .ok t => t
  | .error k => s.raiseFault k

end Sys2Proof.Machine
end

