-- ==== Sys2Proof/Machine/Flags.lean ====
section
/-! DEFINITION. Every flag computation of the spec, on the exact integer result (10_state.md R16, 45_arith.md R150), the nine
jump conditions (46_jumps.md R160, R179), and the debug view of the flags as a byte (10_state.md R23). -/

namespace Sys2Proof.Machine

open Sys2Proof

/-- OVERFLOW assigned: the exact result is above 0xFFFF (10_state.md R16: `inc`, `add`, `mul`; log 12). -/
def Flags.setOverflow (f : Flags) (exact : Int) : Flags := { f with overflow := decide (exact > 0xFFFF) }

/-- UNDERFLOW assigned: the exact result is negative (10_state.md R16: `dec`, `sub`; log 12). -/
def Flags.setUnderflow (f : Flags) (exact : Int) : Flags := { f with underflow := decide (exact < 0) }

/-- The four flags of `cmp`, an unsigned comparison of `R[0]` with the source (43_cmp.md R120; log 19). -/
def Flags.compare (f : Flags) (r0 src : Word) : Flags :=
  { f with
    greater := decide (r0.toNat > src.toNat)
    less := decide (r0.toNat < src.toNat)
    equal := decide (r0 = src)
    zero := decide (r0 = 0x0000) }

/-- DATA and ZERO after an input attempt: true and false when a byte was read, false and true when none was
(41_system_io.md R103). -/
def Flags.input (f : Flags) (answer : Option Byte) : Flags :=
  { f with data := answer.isSome, zero := answer.isNone }

/-! ## The jump conditions (46_jumps.md R160) -/

/-- `jmp`: always. -/
def condJmp (_ : Flags) : Bool := true

/-- `je`: EQUAL. -/
def condJe (f : Flags) : Bool := f.equal

/-- `jne`: not EQUAL. -/
def condJne (f : Flags) : Bool := !f.equal

/-- `jz`: ZERO. -/
def condJz (f : Flags) : Bool := f.zero

/-- `jnz`: not ZERO. -/
def condJnz (f : Flags) : Bool := !f.zero

/-- `jl`: LESS. -/
def condJl (f : Flags) : Bool := f.less

/-- `jle`: LESS or EQUAL. -/
def condJle (f : Flags) : Bool := f.less || f.equal

/-- `jg`: GREATER. -/
def condJg (f : Flags) : Bool := f.greater

/-- `jge`: GREATER or EQUAL. -/
def condJge (f : Flags) : Bool := f.greater || f.equal

/-! ## The debug view -/

/-- The flags packed into a byte for a debug port: bit 0 HALT up to bit 7 UNDERFLOW (10_state.md R23). No instruction moves
it. -/
def Flags.pack (f : Flags) : Byte :=
  BitVec.ofBool f.underflow ++ BitVec.ofBool f.overflow ++ BitVec.ofBool f.data ++ BitVec.ofBool f.zero ++
    BitVec.ofBool f.equal ++ BitVec.ofBool f.less ++ BitVec.ofBool f.greater ++ BitVec.ofBool f.halt

end Sys2Proof.Machine
end

