-- ==== Sys2Proof/Machine/Operands.lean ====
section
/-! DEFINITION. The operand resolver for every mode (40_execution_cycle.md R84, R85), the handler contract (R86), writeback
(R87), the commit of a step (R81, R88, R89), and the whole of one instruction over these. -/

namespace Sys2Proof.Machine

open Sys2Proof

/-- A destination location: a register, or the 16-bit memory cell at an address (40_execution_cycle.md R84). -/
inductive Loc where
  | reg (i : Fin 10)
  | mem (a : Word)
  deriving DecidableEq, Repr

/-- A final destination address, refused when the store would touch 0x10000 (40_execution_cycle.md R84). -/
def storeLoc (a : Word) : Except FaultKind Loc := if a = 0xFFFF then .error .addressRange else .ok (.mem a)

/-- `ResolveDst` on an operand whose bytes are read (40_execution_cycle.md R84). Nothing is written. -/
def resolveDst (s : State) : DstOperand → Except FaultKind Loc
  | .none => .ok (.reg 0)
  | .register b => (regIndex b).map Loc.reg
  | .memory a => storeLoc a
  | .memoryPointer p => do
    let a ← memRead2 s p.toNat
    storeLoc a

/-- `ResolveSrc` on an operand whose bytes are read (40_execution_cycle.md R85). -/
def resolveSrc (s : State) : SrcOperand → Except FaultKind Word
  | .none => .ok (s.reg 0)
  | .register b => (regIndex b).map s.reg
  | .immediate v => .ok v
  | .memory a => memRead2 s a.toNat
  | .memoryPointer p => do
    let a ← memRead2 s p.toNat
    memRead2 s a.toNat

/-- A handler's outcome (40_execution_cycle.md R86): the pending destination value, the flags it leaves, an optional direct
write of `R[0]`, the target when control is transferred, and the record of what it asked the collaborators. -/
structure HandlerOut where
  dst : Word
  flags : Flags
  r0 : Option Word
  target : Option Word
  ports : Ports
  deriving DecidableEq, Repr

/-- A handler: from the state and `SRC` to an outcome or a fault (40_execution_cycle.md R86). -/
abbrev Handler := State → Word → Except FaultKind HandlerOut

/-- The outcome of a handler that changes nothing: it falls through with `DST = R[0]` (40_execution_cycle.md R91; log 13). -/
def HandlerOut.idle (s : State) : HandlerOut := ⟨s.reg 0, s.flags, none, none, s.ports⟩

/-- `Writeback(loc, v)` (40_execution_cycle.md R87). -/
def writeback (s : State) (loc : Loc) (v : Word) : Except FaultKind State :=
  match loc with
  | .reg i => .ok (s.setReg i v)
  | .mem a => memWrite2 s a.toNat v

/-- A handler's direct write of `R[0]`, where it made one (40_execution_cycle.md R86). -/
def applyR0 (s : State) : Option Word → State
  | none => s
  | some v => s.setReg 0 v

/-- The part of a step after COMMIT (40_execution_cycle.md R81): flags, the direct write and the ports; then the jump, or
writeback and the advance, which wraps (R88, R89; log 11). -/
def commit (s : State) (len : Nat) (loc : Loc) (out : HandlerOut) : Except FaultKind State :=
  let s1 := applyR0 ((s.setFlags out.flags).setPorts out.ports) out.r0
  match out.target with
  | some target => .ok (s1.setPc target)
  | none => (writeback s1 loc out.dst).map (fun s2 => s2.setPc (trunc16 (s.pc.toNat + len)))

/-- Check 2 of a step: the instruction's bytes lie at or below 0xFFFF (40_execution_cycle.md R83, `PC + ILEN - 1 > 0xFFFF`). -/
def fitsAt (s : State) (len : Nat) : Bool := decide (s.pc.toNat + len - 1 ≤ 0xFFFF)

/-- The checks and effects of one instruction in the order of 40_execution_cycle.md R81 (60_exceptions.md R192): bytes in
range, destination, source, handler, commit. -/
def attempt (s : State) (dst : DstOperand) (src : SrcOperand) (h : Handler) : Except FaultKind State :=
  let len := ilen dst.mode src.mode
  if fitsAt s len then do
    let loc ← resolveDst s dst
    let v ← resolveSrc s src
    let out ← h s v
    commit s len loc out
  else .error .addressRange

/-- One instruction: its effect whole, or its fault taken with nothing else changed (40_execution_cycle.md R93). -/
def instruction (dst : DstOperand) (src : SrcOperand) (h : Handler) (s : State) : Host.Outcome State Fault Refusal :=
  .next (settle s (attempt s dst src h))

end Sys2Proof.Machine
end

