-- ==== Sys2Proof/Machine/Arith.lean ====
section
/-! DEFINITION. inc, dec, add, sub, mul, div, shl, shr (45_arith.md R140 to R150): results exact over the integers, then
truncated to 16 bits; everything unsigned (log 19). -/

namespace Sys2Proof.Machine

open Sys2Proof

/-- The `inc` handler: `DST = SRC + 1`, OVERFLOW assigned (45_arith.md R141). -/
def incHandler : Handler := fun s src =>
  let exact : Int := src.toNat + 1
  .ok { HandlerOut.idle s with dst := trunc16 exact, flags := s.flags.setOverflow exact }

/-- The `dec` handler: `DST = SRC - 1`, UNDERFLOW assigned (45_arith.md R142). -/
def decHandler : Handler := fun s src =>
  let exact : Int := src.toNat - 1
  .ok { HandlerOut.idle s with dst := trunc16 exact, flags := s.flags.setUnderflow exact }

/-- The `add` handler: `DST = R[0] + SRC`, OVERFLOW assigned (45_arith.md R143). -/
def addHandler : Handler := fun s src =>
  let exact : Int := (s.reg 0).toNat + src.toNat
  .ok { HandlerOut.idle s with dst := trunc16 exact, flags := s.flags.setOverflow exact }

/-- The `sub` handler: `DST = R[0] - SRC`, UNDERFLOW assigned (45_arith.md R144). -/
def subHandler : Handler := fun s src =>
  let exact : Int := (s.reg 0).toNat - src.toNat
  .ok { HandlerOut.idle s with dst := trunc16 exact, flags := s.flags.setUnderflow exact }

/-- The `mul` handler: `DST` is the low half of `R[0] * SRC`, OVERFLOW assigned (45_arith.md R145). -/
def mulHandler : Handler := fun s src =>
  let exact : Int := (s.reg 0).toNat * src.toNat
  .ok { HandlerOut.idle s with dst := trunc16 exact, flags := s.flags.setOverflow exact }

/-- The `div` handler: `DST` is the unsigned quotient of `R[0]` by `SRC`, no flag; a zero source is the DivideByZero fault (45_arith.md R146). -/
def divHandler : Handler := fun s src =>
  if src = 0x0000 then .error .divideByZero
  else .ok { HandlerOut.idle s with dst := trunc16 ((s.reg 0).toNat / src.toNat : Nat) }

/-- The `shl` handler: `DST = SRC * 2` truncated, no flag (45_arith.md R147). -/
def shlHandler : Handler := fun s src =>
  .ok { HandlerOut.idle s with dst := trunc16 (src.toNat * 2 : Nat) }

/-- The `shr` handler: `DST = SRC div 2`, a logical shift, no flag (45_arith.md R148). -/
def shrHandler : Handler := fun s src =>
  .ok { HandlerOut.idle s with dst := trunc16 (src.toNat / 2 : Nat) }

/-- `inc rD, rS` (45_arith.md R141, R149). -/
def execInc (d r : Byte) (s : State) : Host.Outcome State Fault Refusal :=
  instruction (.register d) (.register r) incHandler s

/-- `dec rD, rS` (45_arith.md R142, R149). -/
def execDec (d r : Byte) (s : State) : Host.Outcome State Fault Refusal :=
  instruction (.register d) (.register r) decHandler s

/-- `add rD, rS` (45_arith.md R143, R149). -/
def execAdd (d r : Byte) (s : State) : Host.Outcome State Fault Refusal :=
  instruction (.register d) (.register r) addHandler s

/-- `sub rD, rS` (45_arith.md R144, R149). -/
def execSub (d r : Byte) (s : State) : Host.Outcome State Fault Refusal :=
  instruction (.register d) (.register r) subHandler s

/-- `mul rD, rS` (45_arith.md R145, R149). -/
def execMul (d r : Byte) (s : State) : Host.Outcome State Fault Refusal :=
  instruction (.register d) (.register r) mulHandler s

/-- `div rD, rS` (45_arith.md R146, R149). -/
def execDiv (d r : Byte) (s : State) : Host.Outcome State Fault Refusal :=
  instruction (.register d) (.register r) divHandler s

/-- `shl rD, rS` (45_arith.md R147, R149). -/
def execShl (d r : Byte) (s : State) : Host.Outcome State Fault Refusal :=
  instruction (.register d) (.register r) shlHandler s

/-- `shr rD, rS` (45_arith.md R148, R149). -/
def execShr (d r : Byte) (s : State) : Host.Outcome State Fault Refusal :=
  instruction (.register d) (.register r) shrHandler s

end Sys2Proof.Machine
end

