-- ==== Sys2Proof/Machine/Compare.lean ====
section
/-! DEFINITION. The two forms of cmp (43_cmp.md R120 to R122). -/

namespace Sys2Proof.Machine

open Sys2Proof

/-- The `cmp` handler: four flags from `R[0]` and the source, no register (43_cmp.md R120). -/
def cmpHandler : Handler := fun s src => .ok { HandlerOut.idle s with flags := s.flags.compare (s.reg 0) src }

/-- `cmp #imm` (43_cmp.md R121). -/
def execCmpImm (v : Word) (s : State) : Host.Outcome State Fault Refusal := instruction .none (.immediate v) cmpHandler s

/-- `cmp rS` (43_cmp.md R122). -/
def execCmpReg (r : Byte) (s : State) : Host.Outcome State Fault Refusal := instruction .none (.register r) cmpHandler s

end Sys2Proof.Machine
end

