-- ==== Sys2Proof/Machine/Interrupt.lean ====
section
/-! DEFINITION. The interrupt dispatcher (60_exceptions.md R194 to R198) and the two forms of int (42_int.md R110 to R112). -/

namespace Sys2Proof.Machine

open Sys2Proof

/-- The number-to-service map (60_exceptions.md R195); the whole 16-bit number is compared, and any other number is
unrecognized (R198). -/
def serviceOf (n : Word) : Option Service :=
  match n.toNat with
  | 0 => some .info
  | 1 => some .gpioCfg
  | 2 => some .gpioSet
  | 3 => some .gpioGet
  | 4 => some .videoPutpixel
  | 5 => some .videoGetpixel
  | 6 => some .videoFill
  | 7 => some .videoLine
  | 8 => some .videoCircle
  | 9 => some .videoPrint
  | 10 => some .videoUpdate
  | _ => none

/-- The `int` handler (42_int.md R110): a recognized number calls its service once with the ten registers and writes `R[0]`
when there is a return value; an unrecognized number does nothing. -/
def intHandler : Handler := fun s src =>
  match serviceOf src with
  | none => .ok (HandlerOut.idle s)
  | some n =>
    let a := s.ports.nextAnswer n s.regs
    .ok { HandlerOut.idle s with dst := a.getD (s.reg 0), r0 := a, ports := s.ports.callService n s.regs }

/-- `int #n` (42_int.md R111). -/
def execIntImm (n : Word) (s : State) : Host.Outcome State Fault Refusal := instruction .none (.immediate n) intHandler s

/-- `int rS` (42_int.md R112). -/
def execIntReg (r : Byte) (s : State) : Host.Outcome State Fault Refusal := instruction .none (.register r) intHandler s

end Sys2Proof.Machine
end

