-- ==== Sys2Proof/Machine/Jump.lean ====
section
/-! DEFINITION. The eighteen jumps: nine conditions, each with an immediate and a register target (46_jumps.md R160 to R181). -/

namespace Sys2Proof.Machine

open Sys2Proof

/-- The jump handler for a condition (46_jumps.md R160): taken, the target is the source value itself, an absolute address;
not taken, it falls through and changes nothing. -/
def jumpHandler (cond : Flags → Bool) : Handler := fun s src =>
  .ok { HandlerOut.idle s with target := if cond s.flags then some src else none }

/-- `jmp #a` (46_jumps.md R161). -/
def execJmpImm (a : Word) (s : State) : Host.Outcome State Fault Refusal :=
  instruction .none (.immediate a) (jumpHandler condJmp) s

/-- `jmp rS` (46_jumps.md R162). -/
def execJmpReg (r : Byte) (s : State) : Host.Outcome State Fault Refusal :=
  instruction .none (.register r) (jumpHandler condJmp) s

/-- `je #a` (46_jumps.md R163). -/
def execJeImm (a : Word) (s : State) : Host.Outcome State Fault Refusal :=
  instruction .none (.immediate a) (jumpHandler condJe) s

/-- `je rS` (46_jumps.md R164). -/
def execJeReg (r : Byte) (s : State) : Host.Outcome State Fault Refusal :=
  instruction .none (.register r) (jumpHandler condJe) s

/-- `jne #a` (46_jumps.md R165). -/
def execJneImm (a : Word) (s : State) : Host.Outcome State Fault Refusal :=
  instruction .none (.immediate a) (jumpHandler condJne) s

/-- `jne rS` (46_jumps.md R166). -/
def execJneReg (r : Byte) (s : State) : Host.Outcome State Fault Refusal :=
  instruction .none (.register r) (jumpHandler condJne) s

/-- `jz #a` (46_jumps.md R167). -/
def execJzImm (a : Word) (s : State) : Host.Outcome State Fault Refusal :=
  instruction .none (.immediate a) (jumpHandler condJz) s

/-- `jz rS` (46_jumps.md R168). -/
def execJzReg (r : Byte) (s : State) : Host.Outcome State Fault Refusal :=
  instruction .none (.register r) (jumpHandler condJz) s

/-- `jnz #a` (46_jumps.md R169). -/
def execJnzImm (a : Word) (s : State) : Host.Outcome State Fault Refusal :=
  instruction .none (.immediate a) (jumpHandler condJnz) s

/-- `jnz rS` (46_jumps.md R170). -/
def execJnzReg (r : Byte) (s : State) : Host.Outcome State Fault Refusal :=
  instruction .none (.register r) (jumpHandler condJnz) s

/-- `jl #a` (46_jumps.md R171). -/
def execJlImm (a : Word) (s : State) : Host.Outcome State Fault Refusal :=
  instruction .none (.immediate a) (jumpHandler condJl) s

/-- `jl rS` (46_jumps.md R172). -/
def execJlReg (r : Byte) (s : State) : Host.Outcome State Fault Refusal :=
  instruction .none (.register r) (jumpHandler condJl) s

/-- `jle #a` (46_jumps.md R173). -/
def execJleImm (a : Word) (s : State) : Host.Outcome State Fault Refusal :=
  instruction .none (.immediate a) (jumpHandler condJle) s

/-- `jle rS` (46_jumps.md R174). -/
def execJleReg (r : Byte) (s : State) : Host.Outcome State Fault Refusal :=
  instruction .none (.register r) (jumpHandler condJle) s

/-- `jg #a` (46_jumps.md R175). -/
def execJgImm (a : Word) (s : State) : Host.Outcome State Fault Refusal :=
  instruction .none (.immediate a) (jumpHandler condJg) s

/-- `jg rS` (46_jumps.md R176). -/
def execJgReg (r : Byte) (s : State) : Host.Outcome State Fault Refusal :=
  instruction .none (.register r) (jumpHandler condJg) s

/-- `jge #a` (46_jumps.md R177). -/
def execJgeImm (a : Word) (s : State) : Host.Outcome State Fault Refusal :=
  instruction .none (.immediate a) (jumpHandler condJge) s

/-- `jge rS` (46_jumps.md R178). -/
def execJgeReg (r : Byte) (s : State) : Host.Outcome State Fault Refusal :=
  instruction .none (.register r) (jumpHandler condJge) s

end Sys2Proof.Machine
end

