-- ==== Sys2Proof/Machine/Move.lean ====
section
/-! DEFINITION. The six forms of mov (44_mov.md R130 to R136). -/

namespace Sys2Proof.Machine

open Sys2Proof

/-- The `mov` handler: `DST <- SRC`, no flag (44_mov.md R130; log 18). -/
def movHandler : Handler := fun s src => .ok { HandlerOut.idle s with dst := src }

/-- `mov rD, #imm` (44_mov.md R131). -/
def execMovRegImm (d : Byte) (v : Word) (s : State) : Host.Outcome State Fault Refusal :=
  instruction (.register d) (.immediate v) movHandler s

/-- `mov rD, rS` (44_mov.md R132). -/
def execMovRegReg (d r : Byte) (s : State) : Host.Outcome State Fault Refusal :=
  instruction (.register d) (.register r) movHandler s

/-- `mov rD, [a]` (44_mov.md R133). -/
def execMovRegMem (d : Byte) (a : Word) (s : State) : Host.Outcome State Fault Refusal :=
  instruction (.register d) (.memory a) movHandler s

/-- `mov rD, [[p]]` (44_mov.md R134). -/
def execMovRegPtr (d : Byte) (p : Word) (s : State) : Host.Outcome State Fault Refusal :=
  instruction (.register d) (.memoryPointer p) movHandler s

/-- `mov [a], rS` (44_mov.md R135). -/
def execMovMemReg (a : Word) (r : Byte) (s : State) : Host.Outcome State Fault Refusal :=
  instruction (.memory a) (.register r) movHandler s

/-- `mov [[p]], rS` (44_mov.md R136). -/
def execMovPtrReg (p : Word) (r : Byte) (s : State) : Host.Outcome State Fault Refusal :=
  instruction (.memoryPointer p) (.register r) movHandler s

end Sys2Proof.Machine
end

