-- ==== Sys2Proof/Machine/SystemIo.lean ====
section
/-! DEFINITION. hlt, nop, stdout, stdin (41_system_io.md R100 to R103). -/

namespace Sys2Proof.Machine

open Sys2Proof

/-- The `hlt` handler: HALT becomes true and the step falls through (41_system_io.md R100; log 15). -/
def hltHandler : Handler := fun s _ => .ok { HandlerOut.idle s with flags := { s.flags with halt := true } }

/-- The `nop` handler (41_system_io.md R101; log 18). -/
def nopHandler : Handler := fun s _ => .ok (HandlerOut.idle s)

/-- The `stdout` handler: the sink gets `SRC[7:0]` (41_system_io.md R102; log 16). -/
def stdoutHandler : Handler := fun s src => .ok { HandlerOut.idle s with ports := s.ports.outByte (loByte src) }

/-- What `stdin` writes to `R[0]`: the byte zero-extended, or 0 when there was none (41_system_io.md R103; log 16). -/
def inputValue : Option Byte → Word
  | some b => b.setWidth 16
  | none => 0x0000

/-- The `stdin` handler: one attempt, whose answer decides `R[0]`, DATA and ZERO (41_system_io.md R103). -/
def stdinHandler : Handler := fun s _ =>
  let a := s.ports.nextInput
  .ok { HandlerOut.idle s with
        dst := inputValue a, flags := s.flags.input a, r0 := some (inputValue a), ports := s.ports.inByte }

/-- `hlt` (41_system_io.md R100). -/
def execHlt (s : State) : Host.Outcome State Fault Refusal := instruction .none .none hltHandler s

/-- `nop` (41_system_io.md R101). -/
def execNop (s : State) : Host.Outcome State Fault Refusal := instruction .none .none nopHandler s

/-- `stdout` (41_system_io.md R102). -/
def execStdout (s : State) : Host.Outcome State Fault Refusal := instruction .none .none stdoutHandler s

/-- `stdin` (41_system_io.md R103). -/
def execStdin (s : State) : Host.Outcome State Fault Refusal := instruction .none .none stdinHandler s

end Sys2Proof.Machine
end

