-- ==== Sys2Proof/Machine/Dispatch.lean ====
section
/-! DEFINITION. One arm a constructor of `Instr`, each a direct call of its meaning. -/

namespace Sys2Proof.Machine

open Sys2Proof

def exec (i : Instr) (s : State) : Host.Outcome State Fault Refusal :=
  match i with
  | .hlt => Sys2Proof.Machine.execHlt s
  | .nop => Sys2Proof.Machine.execNop s
  | .stdout => Sys2Proof.Machine.execStdout s
  | .stdin => Sys2Proof.Machine.execStdin s
  | .intImm n => Sys2Proof.Machine.execIntImm n s
  | .intReg r => Sys2Proof.Machine.execIntReg r s
  | .cmpImm v => Sys2Proof.Machine.execCmpImm v s
  | .cmpReg r => Sys2Proof.Machine.execCmpReg r s
  | .movRegImm d v => Sys2Proof.Machine.execMovRegImm d v s
  | .movRegReg d r => Sys2Proof.Machine.execMovRegReg d r s
  | .movRegMem d a => Sys2Proof.Machine.execMovRegMem d a s
  | .movRegPtr d p => Sys2Proof.Machine.execMovRegPtr d p s
  | .movMemReg a r => Sys2Proof.Machine.execMovMemReg a r s
  | .movPtrReg p r => Sys2Proof.Machine.execMovPtrReg p r s
  | .inc d r => Sys2Proof.Machine.execInc d r s
  | .dec d r => Sys2Proof.Machine.execDec d r s
  | .add d r => Sys2Proof.Machine.execAdd d r s
  | .sub d r => Sys2Proof.Machine.execSub d r s
  | .mul d r => Sys2Proof.Machine.execMul d r s
  | .div d r => Sys2Proof.Machine.execDiv d r s
  | .shl d r => Sys2Proof.Machine.execShl d r s
  | .shr d r => Sys2Proof.Machine.execShr d r s
  | .jmpImm a => Sys2Proof.Machine.execJmpImm a s
  | .jmpReg r => Sys2Proof.Machine.execJmpReg r s
  | .jeImm a => Sys2Proof.Machine.execJeImm a s
  | .jeReg r => Sys2Proof.Machine.execJeReg r s
  | .jneImm a => Sys2Proof.Machine.execJneImm a s
  | .jneReg r => Sys2Proof.Machine.execJneReg r s
  | .jzImm a => Sys2Proof.Machine.execJzImm a s
  | .jzReg r => Sys2Proof.Machine.execJzReg r s
  | .jnzImm a => Sys2Proof.Machine.execJnzImm a s
  | .jnzReg r => Sys2Proof.Machine.execJnzReg r s
  | .jlImm a => Sys2Proof.Machine.execJlImm a s
  | .jlReg r => Sys2Proof.Machine.execJlReg r s
  | .jleImm a => Sys2Proof.Machine.execJleImm a s
  | .jleReg r => Sys2Proof.Machine.execJleReg r s
  | .jgImm a => Sys2Proof.Machine.execJgImm a s
  | .jgReg r => Sys2Proof.Machine.execJgReg r s
  | .jgeImm a => Sys2Proof.Machine.execJgeImm a s
  | .jgeReg r => Sys2Proof.Machine.execJgeReg r s

end Sys2Proof.Machine
end

