-- ==== Sys2Proof/Machine/Fetch.lean ====
section
/-! DEFINITION. Fetching the instruction at the program counter (40_execution_cycle.md R82, R83): the opcode byte, the length it
selects, the range check, the operand bytes. -/

namespace Sys2Proof.Machine

open Sys2Proof

/-- The fault that bytes without an instruction stand for. `truncated` and `noBytes` do not arise in `fetch`, which hands the
decoder exactly as many bytes as the format needs. -/
def faultOfDecode : DecodeError → FaultKind
  | .noBytes => .addressRange
  | .unregisteredOpcode _ => .unregisteredOpcode
  | .truncated _ => .addressRange

/-- The instruction at `PC`, or the fault of the first check that fails: an unregistered opcode before any operand byte is
read, then bytes past the top of memory (40_execution_cycle.md R82, R83; 60_exceptions.md R192 rows 1 and 2; log 17). -/
def fetch (s : State) : Except FaultKind Instr := do
  let op ← memRead1 s s.pc.toNat
  match shapeOf op with
  | none => .error .unregisteredOpcode
  | some shape =>
    if fitsAt s shape.length then
      match decode (s.mem.readBytes s.pc.toNat shape.length) with
      | .ok (i, _) => .ok i
      | .error e => .error (faultOfDecode e)
    else .error .addressRange

/-- Memory with an instruction's bytes stored from an address on: what `State.withFetchWord` places. -/
def storeInstr (m : Memory) (a nbits w : Nat) : Memory := m.writeBytes a (tableBytes nbits w)

end Sys2Proof.Machine
end

