-- ==== Sys2Proof/Machine/Step.lean ====
section
/-! DEFINITION. The step driver (40_execution_cycle.md R80) over the fetch and the meanings. -/

namespace Sys2Proof.Machine

open Sys2Proof

/-- One step (40_execution_cycle.md R80, R81): Halted, nothing happens; Running, the instruction at `PC` executes, or the
fault of its fetch is taken. -/
def step (s : State) : Host.Outcome State Fault Refusal :=
  if s.flags.halt then .next s
  else
    match fetch s with
    | .error k => .next (s.raiseFault k)
    | .ok i => exec i s

/-- The state with the instruction whose bits are `w` stored at `PC`, where the next step fetches; nothing else changes. It
stands for the host's load of a program (70_reset_and_hazards.md R222; log 8). -/
def State.withFetchWord (s : State) (nbits w : Nat) : State :=
  s.setMem (storeInstr s.mem s.pc.toNat nbits w)

end Sys2Proof.Machine
end

