-- ==== Sys2Proof/Machine/Cycle.lean ====
section
/-! DEFINITION. The step of 40_execution_cycle.md R81 for an arbitrary opcode table (00_scope.md R6), written as the spec writes
it: modes looked up by opcode, operands resolved at their addresses, handlers that do not depend on modes (45_arith.md R140).
With the default table it is the machine's step; that the two agree is a statement of this package. -/

namespace Sys2Proof.Machine

open Sys2Proof

/-- The handler of a mnemonic, for any mode pair (30_encoding.md R61). -/
def handlerOf : Mnemonic → Handler
  | .hlt => hltHandler
  | .nop => nopHandler
  | .stdout => stdoutHandler
  | .stdin => stdinHandler
  | .int => intHandler
  | .cmp => cmpHandler
  | .mov => movHandler
  | .inc => incHandler
  | .dec => decHandler
  | .add => addHandler
  | .sub => subHandler
  | .mul => mulHandler
  | .div => divHandler
  | .shl => shlHandler
  | .shr => shrHandler
  | .jmp => jumpHandler condJmp
  | .je => jumpHandler condJe
  | .jne => jumpHandler condJne
  | .jz => jumpHandler condJz
  | .jnz => jumpHandler condJnz
  | .jl => jumpHandler condJl
  | .jle => jumpHandler condJle
  | .jg => jumpHandler condJg
  | .jge => jumpHandler condJge

/-- `ResolveDst(mode, at)` (40_execution_cycle.md R84). -/
def resolveDstAt (s : State) (mode : DstMode) (at_ : Nat) : Except FaultKind Loc :=
  match mode with
  | .none => .ok (.reg 0)
  | .register => do
    let i ← memRead1 s at_
    (regIndex i).map Loc.reg
  | .memory => do
    let a ← memRead2 s at_
    storeLoc a
  | .memoryPointer => do
    let p ← memRead2 s at_
    let a ← memRead2 s p.toNat
    storeLoc a

/-- `ResolveSrc(mode, at)` (40_execution_cycle.md R85). -/
def resolveSrcAt (s : State) (mode : Mode) (at_ : Nat) : Except FaultKind Word :=
  match mode with
  | .none => .ok (s.reg 0)
  | .register => do
    let i ← memRead1 s at_
    (regIndex i).map s.reg
  | .immediate => memRead2 s at_
  | .memory => do
    let a ← memRead2 s at_
    memRead2 s a.toNat
  | .memoryPointer => do
    let p ← memRead2 s at_
    let a ← memRead2 s p.toNat
    memRead2 s a.toNat

/-- The step of a Running core up to the fault or the state it reaches (40_execution_cycle.md R81). -/
def cycleAttempt (T : OpTab) (s : State) : Except FaultKind State := do
  let op ← memRead1 s s.pc.toNat
  match T.lookup op with
  | none => .error .unregisteredOpcode
  | some desc =>
    let len := ilen desc.dstMode desc.srcMode
    if fitsAt s len then do
      let loc ← resolveDstAt s desc.dstMode (s.pc.toNat + 1)
      let src ← resolveSrcAt s desc.srcMode (s.pc.toNat + 1 + dlen desc.dstMode)
      let out ← handlerOf desc.mnemonic s src
      commit s len loc out
    else .error .addressRange

/-- `Step()` for the opcode table `T` (40_execution_cycle.md R80, R81). -/
def cycle (T : OpTab) (s : State) : State := if s.flags.halt then s else settle s (cycleAttempt T s)

end Sys2Proof.Machine
end

