-- ==== Sys2Proof/Machine/HostPort.lean ====
section
/-! DEFINITION. The host's side (70_reset_and_hazards.md R220 to R224): reset in any state, load only between reset and the
first step, step. The host observes by reading the state (60_exceptions.md R202). -/

namespace Sys2Proof.Machine

open Sys2Proof

/-- Reset applied in any state (70_reset_and_hazards.md R220): every piece of architectural state gets its reset value. The
record of the collaborators is outside the block and goes on (log 9). -/
def State.reinit (s : State) : State := State.reset.setPorts s.ports

/-- The host's load: `IMAGE` bytes from a base address on, and `PC <- ENTRY` (70_reset_and_hazards.md R222, R223; log 8). -/
def State.load (s : State) (base : Word) (image : List Byte) (entry : Word) : State :=
  (s.setMem (s.mem.writeBytes base.toNat image)).setPc entry

/-- The launch state: reset and load folded together (00_scope.md R6, D24). -/
def State.launch (base : Word) (image : List Byte) (entry : Word) : State := State.reset.load base image entry

/-- What the host may ask for (70_reset_and_hazards.md R223). -/
inductive HostMove where
  | reset
  | load (base : Word) (image : List Byte) (entry : Word)
  | step
  deriving DecidableEq, Repr

/-- A core with the host beside it: `stepped` says that a step has been requested since the last reset. -/
structure Session where
  core : State
  stepped : Bool
  deriving DecidableEq, Repr

/-- A host move, none when it is not allowed: load comes only between reset and the first step, and the host has no other
write (70_reset_and_hazards.md R223; log 9). -/
def Session.move (h : Session) : HostMove → Option Session
  | .reset => some ⟨h.core.reinit, false⟩
  | .load base image entry => if h.stepped then none else some ⟨h.core.load base image entry, false⟩
  | .step =>
    match Sys2Proof.Machine.step h.core with
    | .next t => some ⟨t, true⟩
    | .fault _ => none
    | .refused _ => none

end Sys2Proof.Machine
end

