-- ==== Sys2Proof/Safety.lean ====
section
/-! DEFINITION. The words the statements are written in: how a run stands (60_exceptions.md R199, 70_reset_and_hazards.md R224),
the invariant, what an instruction leaves unchanged, and the fault table of 60_exceptions.md R192. -/

namespace Sys2Proof.Machine

open Sys2Proof

/-! ## How a run stands -/

/-- Running: HALT is false (40_execution_cycle.md R80). -/
abbrev State.running (s : State) : Prop := s.flags.halt = false

/-- A run that ended well: Halted with no fault (70_reset_and_hazards.md R224). -/
abbrev State.endedWell (s : State) : Prop := s.flags.halt = true ∧ s.fault = .none

/-- A run that ended badly: Halted with a fault (70_reset_and_hazards.md R224). -/
abbrev State.endedBadly (s : State) : Prop := s.flags.halt = true ∧ s.fault ≠ .none

/-- The invariant of every reachable state: memory in canonical form, and `FAULT != None` implies HALT (10_state.md R17). -/
abbrev State.Inv (s : State) : Prop := s.mem.wf ∧ (s.fault ≠ .none → s.flags.halt = true)

/-! ## Observations -/

/-- The index byte that names `R[i]` (30_encoding.md R55). -/
def indexByte (i : Fin 10) : Byte := BitVec.ofNat 8 i.val

/-- The byte at an address. -/
def State.byteAt (s : State) (a : Nat) : Byte := s.mem.read a

/-- The big-endian 16-bit number at an address (20_memory.md R33). -/
def State.wordAt (s : State) (a : Nat) : Nat := 256 * (s.byteAt a).toNat + (s.byteAt (a + 1)).toNat

/-- The byte at `b` once the 16-bit value `v` has been stored at `a` (20_memory.md R32). -/
def State.byteAfterStore (s : State) (a : Nat) (v : Word) (b : Nat) : Byte :=
  if b = a then hiByte v else if b = a + 1 then loByte v else s.byteAt b

/-- Every register as before. -/
def SameRegs (s t : State) : Prop := ∀ i, t.reg i = s.reg i

/-- Every register as before but one. -/
def SameRegsBut (d : Fin 10) (s t : State) : Prop := ∀ i, i ≠ d → t.reg i = s.reg i

/-- Every byte of memory as before. -/
def SameMem (s t : State) : Prop := ∀ a, t.byteAt a = s.byteAt a

/-- Every byte of memory as before but the two at `a` and `a + 1`. -/
def SameMemBut (a : Nat) (s t : State) : Prop := ∀ b, b ≠ a → b ≠ a + 1 → t.byteAt b = s.byteAt b

/-- `FAULT` and the record of the collaborators as before: no fault was taken and no collaborator was called. -/
def Quiet (s t : State) : Prop := t.fault = s.fault ∧ t.ports = s.ports

/-- The program counter advanced by `n` bytes, modulo 65536 (40_execution_cycle.md R88; log 11). -/
def Advanced (n : Nat) (s t : State) : Prop := t.pc.toNat = (s.pc.toNat + n) % 65536

/-! ## What a meaning answers -/

/-- `i` completes: it answers a next state, of which `post` holds. -/
def Completes (i : Instr) (s : State) (post : State → Prop) : Prop := ∃ t, exec i s = .next t ∧ post t

/-- `i` takes the fault `k`, and nothing else happens (60_exceptions.md R191). -/
def TakesFault (i : Instr) (s : State) (k : FaultKind) : Prop := exec i s = .next (s.raiseFault k)

/-- An instruction of `n` bytes at `PC` would run past the top of memory (40_execution_cycle.md R83). -/
abbrev PastTop (s : State) (n : Nat) : Prop := 0xFFFF < s.pc.toNat + n - 1

/-- The faults of an instruction of `n` bytes whose bytes do not fit (40_execution_cycle.md R83). -/
def FaultsPastTop (i : Instr) (n : Nat) : Prop := ∀ s, PastTop s n → TakesFault i s .addressRange

/-- An arithmetic instruction of format RR with no fault of its own (45_arith.md R149): its bytes, its faults in order, and its
effect, with `result` and `flags` from the numbers `R[0]` and `SRC` and the flags before. -/
def ArithMeans (mk : Byte → Byte → Instr) (op : Byte) (result : Nat → Nat → Nat) (flags : Flags → Nat → Nat → Flags) : Prop :=
  (∀ d r, encode (mk d r) = [op, d, r]) ∧
  (∀ d r, FaultsPastTop (mk d r) 3) ∧
  (∀ d r s, ¬ PastTop s 3 → 9 < d.toNat ∨ 9 < r.toNat → TakesFault (mk d r) s .registerIndex) ∧
  ∀ (d r : Fin 10) (s : State), ¬ PastTop s 3 → Completes (mk (indexByte d) (indexByte r)) s fun t =>
    (t.reg d).toNat = result (s.reg 0).toNat (s.reg r).toNat ∧ SameRegsBut d s t ∧
    t.flags = flags s.flags (s.reg 0).toNat (s.reg r).toNat ∧ Advanced 3 s t ∧ SameMem s t ∧ Quiet s t

/-- A jump's effect on a target (46_jumps.md R160): taken, `PC` is the target; not taken, it advances by `n`; nothing else
changes. -/
def JumpEffect (cond : Flags → Bool) (n : Nat) (target : Word) (s t : State) : Prop :=
  (cond s.flags = true → t.pc = target) ∧ (cond s.flags = false → Advanced n s t) ∧
  SameRegs s t ∧ t.flags = s.flags ∧ SameMem s t ∧ Quiet s t

/-- An immediate jump (46_jumps.md R160, R181): its bytes, its one fault, its effect. -/
def JumpImmMeans (mk : Word → Instr) (op : Byte) (cond : Flags → Bool) : Prop :=
  (∀ a, encode (mk a) = [op, hiByte a, loByte a]) ∧
  (∀ a, FaultsPastTop (mk a) 3) ∧
  ∀ a s, ¬ PastTop s 3 → Completes (mk a) s (JumpEffect cond 3 a s)

/-- A register jump (46_jumps.md R160, R181): its bytes, its two faults, raised whether or not the branch is taken, its
effect. -/
def JumpRegMeans (mk : Byte → Instr) (op : Byte) (cond : Flags → Bool) : Prop :=
  (∀ r, encode (mk r) = [op, r]) ∧
  (∀ r, FaultsPastTop (mk r) 2) ∧
  (∀ r s, ¬ PastTop s 2 → 9 < r.toNat → TakesFault (mk r) s .registerIndex) ∧
  ∀ (r : Fin 10) s, ¬ PastTop s 2 → Completes (mk (indexByte r)) s (JumpEffect cond 2 (s.reg r) s)

/-- The effect of `int` with number `v` and length `n` (42_int.md R110, 60_exceptions.md R198): a recognized number calls its
service exactly once, with all ten registers, and its return value, if any, goes to `R[0]`; an unrecognized number calls
nothing. -/
def IntEffect (v : Word) (n : Nat) (s t : State) : Prop :=
  (∀ service, serviceOf v = some service → ∃ a, a = s.ports.nextAnswer service s.regs ∧
    t.ports = ⟨s.ports.trace ++ [.call service s.regs a], s.ports.draws + 1, s.ports.inputs, s.ports.answers.tail⟩ ∧
    (a = none → t.reg 0 = s.reg 0) ∧ (∀ w, a = some w → t.reg 0 = w)) ∧
  (serviceOf v = none → t.ports = s.ports ∧ t.reg 0 = s.reg 0) ∧
  SameRegsBut 0 s t ∧ t.flags = s.flags ∧ Advanced n s t ∧ SameMem s t ∧ t.fault = s.fault

/-- The effect of `cmp` with source `v` and length `n` (43_cmp.md R120): four flags from the unsigned comparison of `R[0]` with
the source, in one of five combinations, and nothing else. -/
def CmpEffect (v : Word) (n : Nat) (s t : State) : Prop :=
  t.flags = { s.flags with
    greater := decide (v.toNat < (s.reg 0).toNat), less := decide ((s.reg 0).toNat < v.toNat),
    equal := decide ((s.reg 0).toNat = v.toNat), zero := decide ((s.reg 0).toNat = 0) } ∧
  (t.flags.greater, t.flags.less, t.flags.equal, t.flags.zero) ∈
    [(true, false, false, false), (false, true, false, false), (false, true, false, true), (false, false, true, false),
     (false, false, true, true)] ∧
  SameRegs s t ∧ Advanced n s t ∧ SameMem s t ∧ Quiet s t

/-- The effect of a `mov` into `R[d]` with source value `v` (44_mov.md R130): the value arrives, no flag changes. -/
def LoadEffect (d : Fin 10) (v : Nat) (n : Nat) (s t : State) : Prop :=
  (t.reg d).toNat = v ∧ SameRegsBut d s t ∧ t.flags = s.flags ∧ Advanced n s t ∧ SameMem s t ∧ Quiet s t

/-- The effect of a `mov` of `v` to memory at `a` (44_mov.md R130, 20_memory.md R32): two bytes, high byte first, and nothing
else. -/
def StoreEffect (a : Nat) (v : Word) (n : Nat) (s t : State) : Prop :=
  t.wordAt a = v.toNat ∧ (t.byteAt a).toNat = v.toNat / 256 ∧ (t.byteAt (a + 1)).toNat = v.toNat % 256 ∧
  SameMemBut a s t ∧ SameRegs s t ∧ t.flags = s.flags ∧ Advanced n s t ∧ Quiet s t

/-! ## Who writes what (10_state.md R16) -/

/-- The names of the flags. -/
inductive FlagName where
  | halt | greater | less | equal | zero | data | overflow | underflow
  deriving DecidableEq, Repr

/-- The flag of a name. -/
def Flags.get (f : Flags) : FlagName → Bool
  | .halt => f.halt
  | .greater => f.greater
  | .less => f.less
  | .equal => f.equal
  | .zero => f.zero
  | .data => f.data
  | .overflow => f.overflow
  | .underflow => f.underflow

/-- The flags a mnemonic writes when it completes (the table of 10_state.md R16). -/
def flagsWritten : Mnemonic → List FlagName
  | .hlt => [.halt]
  | .cmp => [.greater, .less, .equal, .zero]
  | .stdin => [.zero, .data]
  | .inc => [.overflow]
  | .add => [.overflow]
  | .mul => [.overflow]
  | .dec => [.underflow]
  | .sub => [.underflow]
  | .nop | .stdout | .int | .mov | .div | .shl | .shr => []
  | .jmp | .je | .jne | .jz | .jnz | .jl | .jle | .jg | .jge => []

/-- The nine jump mnemonics (46_jumps.md). -/
def jumpMnemonics : List Mnemonic := [.jmp, .je, .jne, .jz, .jnz, .jl, .jle, .jg, .jge]

/-- Two states that a program cannot tell apart: everything is equal but DATA, OVERFLOW, UNDERFLOW and FAULT, which no
instruction reads (10_state.md R16, R17). -/
def SameToProgram (s t : State) : Prop :=
  t.regs = s.regs ∧ t.pc = s.pc ∧ t.mem = s.mem ∧ t.ports = s.ports ∧ t.flags.halt = s.flags.halt ∧
  t.flags.greater = s.flags.greater ∧ t.flags.less = s.flags.less ∧ t.flags.equal = s.flags.equal ∧
  t.flags.zero = s.flags.zero

/-! ## The faults in their order (60_exceptions.md R192) -/

/-- Rows 3 and 4: the fault of a destination operand whose bytes stand at `at_`. -/
def dstFault (s : State) (mode : DstMode) (at_ : Nat) : Option FaultKind :=
  match mode with
  | .none => none
  | .register => if 9 < (s.byteAt at_).toNat then some .registerIndex else none
  | .memory => if s.wordAt at_ = 0xFFFF then some .addressRange else none
  | .memoryPointer =>
    if s.wordAt at_ = 0xFFFF ∨ s.wordAt (s.wordAt at_) = 0xFFFF then some .addressRange else none

/-- Rows 5 and 6: the fault of a source operand whose bytes stand at `at_`. -/
def srcFault (s : State) (mode : Mode) (at_ : Nat) : Option FaultKind :=
  match mode with
  | .none => none
  | .register => if 9 < (s.byteAt at_).toNat then some .registerIndex else none
  | .immediate => none
  | .memory => if s.wordAt at_ = 0xFFFF then some .addressRange else none
  | .memoryPointer =>
    if s.wordAt at_ = 0xFFFF ∨ s.wordAt (s.wordAt at_) = 0xFFFF then some .addressRange else none

/-- The number `SRC` of a source operand that has no fault (30_encoding.md R53). -/
def srcNumber (s : State) (mode : Mode) (at_ : Nat) : Nat :=
  match mode with
  | .none => (s.reg 0).toNat
  | .register => (s.regs.toList.getD (s.byteAt at_).toNat 0).toNat
  | .immediate => s.wordAt at_
  | .memory => s.wordAt (s.wordAt at_)
  | .memoryPointer => s.wordAt (s.wordAt (s.wordAt at_))

/-- The first fault of the instruction at `PC` under the opcode table `T`, in the fixed order of checks (60_exceptions.md
R192), or none when the instruction completes. -/
def firstFault (T : OpTab) (s : State) : Option FaultKind :=
  match T.lookup (s.byteAt s.pc.toNat) with
  | none => some .unregisteredOpcode
  | some desc =>
    if 0xFFFF < s.pc.toNat + ilen desc.dstMode desc.srcMode - 1 then some .addressRange
    else
      match dstFault s desc.dstMode (s.pc.toNat + 1) with
      | some k => some k
      | none =>
        match srcFault s desc.srcMode (s.pc.toNat + 1 + dlen desc.dstMode) with
        | some k => some k
        | none =>
          if desc.mnemonic = .div ∧ srcNumber s desc.srcMode (s.pc.toNat + 1 + dlen desc.dstMode) = 0
          then some .divideByZero else none

end Sys2Proof.Machine
end

