-- ==== Sys2Proof/Certificates/Slice0/Obligations.lean ====
section
/-! DEFINITION. The statements for the provers, one `def Obligations.<Name> : Prop` each; OBLIGATIONS.json lists them with the
rules they formalise. A decision D<n> of 92_eei_decisions.md that a rule carries is the spec's own choice; the docstring names
it with its log entry. Where a statement says `Advanced`, that the advance wraps at the top of memory is D6, log 11. -/

open Sys2Proof Sys2Proof.Machine

/-! ## Encoding -/

/-- Decoding an encoded instruction gives it back, with whatever bytes follow, for every instruction and every operand value,
index bytes above 9 included. -/
def Obligations.DecodeOfEncodeIsIdentity : Prop :=
  ∀ (i : Instr) (rest : List Byte), decode (encode i ++ rest) = .ok (i, rest)

/-- The other direction: the bytes an instruction is decoded from are its encoding, so every encoding has one meaning and no
operand bit is dropped. -/
def Obligations.DecodedBytesAreTheEncoding : Prop :=
  ∀ (bytes : List Byte) (i : Instr) (rest : List Byte), decode bytes = .ok (i, rest) → bytes = encode i ++ rest

/-- Byte sequences written out from 30_encoding.md R73 and 95_test_vectors.md decode to their instructions (a sanity
statement; the numbers and modes are D13 to D18, log 2). -/
def Obligations.WrittenEncodingsDecode : Prop :=
  decode [0x10, 0x01, 0x12, 0x34] = .ok (.movRegImm 1 0x1234, []) ∧
  decode [0x22, 0x01, 0x02] = .ok (.add 1 2, []) ∧
  decode [0x07, 0x00, 0x05] = .ok (.cmpImm 5, []) ∧
  decode [0xE4, 0x01, 0x00] = .ok (.jneImm 0x0100, []) ∧
  decode [0xE1, 0x03] = .ok (.jmpReg 3, []) ∧
  decode [0x14, 0x20, 0x00, 0x01] = .ok (.movMemReg 0x2000 1, []) ∧
  decode [0x15, 0x30, 0x00, 0x02] = .ok (.movPtrReg 0x3000 2, []) ∧
  decode [0x05, 0x04] = .ok (.intReg 4, []) ∧
  decode [0x03] = .ok (.stdin, [])

/-- R51: `ILEN` is 1 plus the contributions of the opcode's two modes, for all twenty mode pairs, and so 1 to 5; and every
encoding has that length, whatever its operand bytes. -/
def Obligations.LengthFollowsFromModes : Prop :=
  (dlen .none = 0 ∧ dlen .register = 1 ∧ dlen .memory = 2 ∧ dlen .memoryPointer = 2) ∧
  (slen .none = 0 ∧ slen .register = 1 ∧ slen .immediate = 2 ∧ slen .memory = 2 ∧ slen .memoryPointer = 2) ∧
  (∀ d m, ilen d m = 1 + dlen d + slen m) ∧
  (∀ d m, 1 ≤ ilen d m ∧ ilen d m ≤ 5) ∧
  ∀ (i : Instr) (op : Byte) (operands : List Byte), encode i = op :: operands →
    ∃ desc, defaultOpTab.lookup op = some desc ∧
      (encode i).length = 1 + dlen desc.dstMode + slen desc.srcMode

/-- R57 with U8 and U9: a table is built exactly when no row's destination mode is `immediate` and no two rows share an
opcode, and then each row's slot holds its descriptor and every other slot is empty (D19, log 2). -/
def Obligations.TableBuildRefusesBadRows : Prop :=
  ∀ rows : List (Byte × RawDescriptor),
    ((∃ T, OpTab.build rows = some T) ↔ (rows.map (·.1)).Nodup ∧ ∀ r ∈ rows, r.2.dstMode ≠ .immediate) ∧
    ∀ T, OpTab.build rows = some T →
      (∀ r ∈ rows, OpTab.lookup T r.1 = r.2.check) ∧ ∀ op, op ∉ rows.map (·.1) → OpTab.lookup T op = none

/-- R72: for any table, the assembler's lookup answers a slot exactly when it holds a descriptor with this mnemonic and these
modes and no lower slot does (the scan ascends, DEDUCED, log 2), and fails exactly when no slot holds one; a failure is no
opcode at all (U7). -/
def Obligations.AssemblerLookupFindsExactMatches : Prop :=
  ∀ (T : OpTab) (m : Mnemonic) (src : Mode) (dst : DstMode),
    (∀ op, T.lookupByMnemonic m src dst = some op ↔
      T.lookup op = some ⟨m, src, dst⟩ ∧ ∀ op' : Byte, op'.toNat < op.toNat → T.lookup op' ≠ some ⟨m, src, dst⟩) ∧
    (T.lookupByMnemonic m src dst = none ↔ ∀ op, T.lookup op ≠ some ⟨m, src, dst⟩)

/-- R63: the 216 opcodes outside the default table fault in any state, and nothing of them is executed (the empty slots
D12, log 2; the fault and its precision D3, D4, log 17). -/
def Obligations.UnregisteredOpcodesFault : Prop :=
  (∀ op : Byte, defaultOpTab.lookup op = none ↔
    (op.toNat = 0x06 ∨ (0x09 ≤ op.toNat ∧ op.toNat ≤ 0x0F) ∨ (0x16 ≤ op.toNat ∧ op.toNat ≤ 0x1F) ∨
      (0x28 ≤ op.toNat ∧ op.toNat ≤ 0xDF) ∨ (0xF2 ≤ op.toNat ∧ op.toNat ≤ 0xFF))) ∧
  ((List.range 256).filter (fun n => (defaultOpTab.lookup (BitVec.ofNat 8 n)).isNone)).length = 216 ∧
  ∀ s : State, s.running → defaultOpTab.lookup (s.byteAt s.pc.toNat) = none →
    step s = .next (s.raiseFault .unregisteredOpcode)

/-! ## Memory -/

/-- R31: the two reads, on any address. That an access above 0xFFFF faults is the spec's own choice (D5, log 17). -/
def Obligations.ReadsAreBigEndianAndRanged : Prop :=
  ∀ (s : State) (a : Nat),
    (0xFFFF < a → memRead1 s a = .error .addressRange) ∧
    (a ≤ 0xFFFF → memRead1 s a = .ok (s.byteAt a)) ∧
    (0xFFFF < a + 1 → memRead2 s a = .error .addressRange) ∧
    (a + 1 ≤ 0xFFFF → ∃ v, memRead2 s a = .ok v ∧ v.toNat = s.wordAt a)

/-- R32: the one store the machine makes, on any address, from any state with canonical memory; the canonical form stays
(the fault D5, log 17). -/
def Obligations.StoreWritesTwoBytesHighFirst : Prop :=
  ∀ (s : State) (a : Nat) (v : Word), s.mem.wf →
    (0xFFFF < a + 1 → memWrite2 s a v = .error .addressRange) ∧
    (a + 1 ≤ 0xFFFF → ∃ t, memWrite2 s a v = .ok t ∧ t.mem.wf ∧
      (t.byteAt a).toNat = v.toNat / 256 ∧ (t.byteAt (a + 1)).toNat = v.toNat % 256 ∧ SameMemBut a s t ∧
      SameRegs s t ∧ t.pc = s.pc ∧ t.flags = s.flags ∧ Quiet s t)

/-- The last sentence of R33: after a store at `A`, a load at `A` gives the value, and a load at `A + 1` has the stored low byte
as its high byte and `MEM[A+2]` as its low byte. -/
def Obligations.LoadAfterStoreSeesItsBytes : Prop :=
  ∀ (s t : State) (a : Nat) (v : Word), s.mem.wf → memWrite2 s a v = .ok t →
    memRead2 t a = .ok v ∧
    (a + 2 ≤ 0xFFFF → ∃ w, memRead2 t (a + 1) = .ok w ∧
      w.toNat = 256 * (v.toNat % 256) + (s.byteAt (a + 2)).toNat)

/-! ## The step -/

/-- When the bytes at the program counter decode to an instruction that fits below the top of memory, the step of a Running
core is that instruction's meaning, and nothing is added around it. -/
def Obligations.StepRunsTheDecodedInstruction : Prop :=
  ∀ (s : State) (i : Instr) (rest : List Byte), s.running →
    decode (s.mem.readBytes s.pc.toNat longestInstr) = .ok (i, rest) → ¬ PastTop s i.length → step s = exec i s

/-- R81: the machine's step, which decodes and dispatches, is the spec's step function over the default opcode table, from
every state (the table D12 to D19, log 2; the faults and their order D3 to D8, log 17). In particular a
step always answers a next state. -/
def Obligations.StepIsTheSpecCycle : Prop :=
  ∀ s : State, step s = .next (cycle defaultOpTab s)

/-- R80, the Halted half: any number of steps of a Halted core change nothing. -/
def Obligations.HaltedCoreNeverChanges : Prop :=
  ∀ (s : State) (n : Nat), s.flags.halt = true → Sys2Proof.core.run n s = .next s

/-- R191: a step that takes a fault writes HALT and FAULT and nothing else, and every later step is a no-op (D4, log 17). -/
def Obligations.FaultingStepWritesOnlyHaltAndFault : Prop :=
  ∀ s t : State, s.running → s.fault = .none → step s = .next t → t.fault ≠ .none →
    SameRegs s t ∧ t.pc = s.pc ∧ SameMem s t ∧ t.ports = s.ports ∧ t.flags = { s.flags with halt := true } ∧
    ∀ n, Sys2Proof.core.run n t = .next t

/-- R192: for any opcode table, the step takes the first fault of the table of checks, and where no check fails it takes none
(the checks, their order and their precision D3, D4, D5, D7, D8, log 17). -/
def Obligations.FirstFailingCheckIsTheFault : Prop :=
  ∀ (T : OpTab) (s : State), s.running →
    (∀ k, firstFault T s = some k → cycle T s = s.raiseFault k) ∧
    (firstFault T s = none → (cycle T s).fault = s.fault)

/-- R84: destination resolution, for every mode and every place its operand bytes can stand (its faults are D5 and D7, log 17). -/
def Obligations.DestinationResolution : Prop :=
  ∀ (s : State) (mode : DstMode) (at_ : Nat), at_ + dlen mode ≤ 65536 →
    (∀ k, dstFault s mode at_ = some k → resolveDstAt s mode at_ = .error k) ∧
    (dstFault s mode at_ = none → ∃ loc, resolveDstAt s mode at_ = .ok loc ∧
      (mode = .none → loc = .reg 0) ∧
      (mode = .register → ∃ i : Fin 10, loc = .reg i ∧ i.val = (s.byteAt at_).toNat) ∧
      (mode = .memory → ∃ a : Word, loc = .mem a ∧ a.toNat = s.wordAt at_) ∧
      (mode = .memoryPointer → ∃ a : Word, loc = .mem a ∧ a.toNat = s.wordAt (s.wordAt at_)))

/-- R85: source resolution, for every mode and every place its operand bytes can stand (the two faults are D5 and D7, log 17). -/
def Obligations.SourceResolution : Prop :=
  ∀ (s : State) (mode : Mode) (at_ : Nat), at_ + slen mode ≤ 65536 →
    (∀ k, srcFault s mode at_ = some k → resolveSrcAt s mode at_ = .error k) ∧
    (srcFault s mode at_ = none → ∃ v, resolveSrcAt s mode at_ = .ok v ∧
      (mode = .none → v = s.reg 0) ∧
      (mode = .register → ∃ i : Fin 10, v = s.reg i ∧ i.val = (s.byteAt at_).toNat) ∧
      (mode = .immediate → v.toNat = s.wordAt at_) ∧
      (mode = .memory → v.toNat = s.wordAt (s.wordAt at_)) ∧
      (mode = .memoryPointer → v.toNat = s.wordAt (s.wordAt (s.wordAt at_))))

/-- R87: writeback delivers the value to one register or to two bytes of memory, changes nothing else, and cannot fault at a
location that destination resolution gives. -/
def Obligations.WritebackDeliversTheValue : Prop :=
  (∀ (s : State) (i : Fin 10) (v : Word), ∃ t, writeback s (.reg i) v = .ok t ∧ t.reg i = v ∧ SameRegsBut i s t ∧
    SameMem s t ∧ t.pc = s.pc ∧ t.flags = s.flags ∧ Quiet s t) ∧
  (∀ (s : State) (mode : DstMode) (at_ : Nat) (a v : Word), s.mem.wf → resolveDstAt s mode at_ = .ok (.mem a) →
    ∃ t, writeback s (.mem a) v = .ok t ∧ t.wordAt a.toNat = v.toNat ∧ SameMemBut a.toNat s t ∧ SameRegs s t ∧
      t.pc = s.pc ∧ t.flags = s.flags ∧ Quiet s t)

/-- R91, the handlers that compute no result: what they leave for writeback is `R[0]` after their own direct write, so under
any mode pair the destination receives a copy of `R[0]` (D10, log 13). -/
def Obligations.ResultlessHandlersPassR0 : Prop :=
  ∀ (m : Mnemonic) (s : State) (src : Word) (out : HandlerOut),
    m ∈ [.hlt, .nop, .stdout, .stdin, .int, .cmp, .jmp, .je, .jne, .jz, .jnz, .jl, .jle, .jg, .jge] →
    handlerOf m s src = .ok out → out.target = none → out.dst = (applyR0 s out.r0).reg 0

/-! ## hlt, nop, stdout, stdin -/

/-- R100: `hlt` (encoding D13, log 2; the executing step advances PC, D11, log 15; that `R[0]` stays D10, log 13). -/
def Obligations.HltHaltsForGood : Prop :=
  encode .hlt = [0x00] ∧
  ∀ s, Completes .hlt s fun t =>
    t.flags = { s.flags with halt := true } ∧ SameRegs s t ∧ Advanced 1 s t ∧ SameMem s t ∧ Quiet s t ∧
    ∀ n, Sys2Proof.core.run n t = .next t

/-- R101: `nop` (encoding D13, log 2; that it does nothing is G1, log 18; that `R[0]` stays D10, log 13). -/
def Obligations.NopOnlyAdvances : Prop :=
  encode .nop = [0x01] ∧
  ∀ s, Completes .nop s fun t =>
    t.flags = s.flags ∧ SameRegs s t ∧ Advanced 1 s t ∧ SameMem s t ∧ Quiet s t

/-- R102: `stdout` (encoding D13, log 2; the low byte D21, log 16; that `R[0]` stays D10, log 13). -/
def Obligations.StdoutSendsTheLowByte : Prop :=
  encode .stdout = [0x02] ∧
  ∀ s, Completes .stdout s fun t =>
    (∃ b : Byte, b.toNat = (s.reg 0).toNat % 256 ∧
      t.ports = ⟨s.ports.trace ++ [.out b], s.ports.draws, s.ports.inputs, s.ports.answers⟩) ∧
    t.flags = s.flags ∧ SameRegs s t ∧ Advanced 1 s t ∧ SameMem s t ∧ t.fault = s.fault

/-- R103: `stdin`, for whatever the input source answers (encoding D13, log 2; results D22, log 16). -/
def Obligations.StdinMakesOneAttempt : Prop :=
  encode .stdin = [0x03] ∧
  ∀ s, Completes .stdin s fun t => ∃ a, a = s.ports.nextInput ∧
    t.ports = ⟨s.ports.trace ++ [.inp a], s.ports.draws + 1, s.ports.inputs.tail, s.ports.answers⟩ ∧
    (∀ b, a = some b → (t.reg 0).toNat = b.toNat ∧ t.flags = { s.flags with data := true, zero := false }) ∧
    (a = none → t.reg 0 = 0x0000 ∧ t.flags = { s.flags with data := false, zero := true }) ∧
    SameRegsBut 0 s t ∧ Advanced 1 s t ∧ SameMem s t ∧ t.fault = s.fault

/-- The environment decides every answer: whatever answers a state has fixed, the next attempt and the next call get the
first of them (U13; the fields are the model's own, log 3; what a service can do D23, log 3). -/
def Obligations.EnvironmentFixesTheAnswers : Prop :=
  (∀ (s : State) (a : Option Byte) (rest : List (Option Byte)), s.ports.inputs = a :: rest →
    Completes .stdin s fun t => t.ports.trace = s.ports.trace ++ [.inp a] ∧ t.ports.inputs = rest) ∧
  (∀ (s : State) (n : Word) (service : Service) (a : Option Word) (rest : List (Option Word)),
    s.ports.answers = a :: rest → serviceOf n = some service → ¬ PastTop s 3 →
    Completes (.intImm n) s fun t =>
      t.ports.trace = s.ports.trace ++ [.call service s.regs a] ∧ t.ports.answers = rest ∧ t.reg 0 = a.getD (s.reg 0))

/-! ## int -/

/-- R195: the closed map from numbers 0 to 10 to services; R198: every other number is unrecognized, compared as a full 16-bit
number (D23, log 3: DESIGN CHOICE). -/
def Obligations.ServiceNumbering : Prop :=
  (List.range 11).map (fun n => serviceOf (BitVec.ofNat 16 n)) =
    [some .info, some .gpioCfg, some .gpioSet, some .gpioGet, some .videoPutpixel, some .videoGetpixel, some .videoFill,
      some .videoLine, some .videoCircle, some .videoPrint, some .videoUpdate] ∧
  ∀ n : Word, 10 < n.toNat → serviceOf n = none

/-- R111 with R110 and R198: `int #n` (encoding D14, log 2; the service port D23, log 3; that `R[0]` stays where no
value comes D10, log 13; the fault D5, log 17). -/
def Obligations.IntImmediateDispatches : Prop :=
  (∀ n, encode (.intImm n) = [0x04, hiByte n, loByte n]) ∧
  (∀ n, FaultsPastTop (.intImm n) 3) ∧
  ∀ n s, ¬ PastTop s 3 → Completes (.intImm n) s (IntEffect n 3 s)

/-- R112 with R110 and R198: `int rS` (encoding D14, log 2; the service port D23, log 3; that `R[0]` stays where no
value comes D10, log 13; the faults D5, D7, log 17). -/
def Obligations.IntRegisterDispatches : Prop :=
  (∀ r, encode (.intReg r) = [0x05, r]) ∧
  (∀ r, FaultsPastTop (.intReg r) 2) ∧
  (∀ r s, ¬ PastTop s 2 → 9 < r.toNat → TakesFault (.intReg r) s .registerIndex) ∧
  ∀ (r : Fin 10) s, ¬ PastTop s 2 → Completes (.intReg (indexByte r)) s (IntEffect (s.reg r) 2 s)

/-! ## cmp -/

/-- R121 with R120: `cmp #imm` (destination mode D15, log 2; unsigned D20, log 19; that `R[0]` survives D10, log 13; flags
assigned false D9, log 12; the fault D5, log 17). -/
def Obligations.CmpImmediateSetsFourFlags : Prop :=
  (∀ v, encode (.cmpImm v) = [0x07, hiByte v, loByte v]) ∧
  (∀ v, FaultsPastTop (.cmpImm v) 3) ∧
  ∀ v s, ¬ PastTop s 3 → Completes (.cmpImm v) s (CmpEffect v 3 s)

/-- R122 with R120: `cmp rS` (destination mode D15, log 2; unsigned D20, log 19; that `R[0]` survives D10, log 13; flags
assigned false D9, log 12; the faults D5, D7, log 17). -/
def Obligations.CmpRegisterSetsFourFlags : Prop :=
  (∀ r, encode (.cmpReg r) = [0x08, r]) ∧
  (∀ r, FaultsPastTop (.cmpReg r) 2) ∧
  (∀ r s, ¬ PastTop s 2 → 9 < r.toNat → TakesFault (.cmpReg r) s .registerIndex) ∧
  ∀ (r : Fin 10) s, ¬ PastTop s 2 → Completes (.cmpReg (indexByte r)) s (CmpEffect (s.reg r) 2 s)

/-! ## mov (encodings D16, log 2; the copy is G2, log 18) -/

/-- R131: `mov rD, #imm` (encoding D16, log 2; the copy without flags G2, log 18;
faults and their order D5, D7, D8, log 17). -/
def Obligations.MovImmediateLoadsRegister : Prop :=
  (∀ d v, encode (.movRegImm d v) = [0x10, d, hiByte v, loByte v]) ∧
  (∀ d v, FaultsPastTop (.movRegImm d v) 4) ∧
  (∀ d v s, ¬ PastTop s 4 → 9 < d.toNat → TakesFault (.movRegImm d v) s .registerIndex) ∧
  ∀ (d : Fin 10) v s, ¬ PastTop s 4 → Completes (.movRegImm (indexByte d) v) s (LoadEffect d v.toNat 4 s)

/-- R132: `mov rD, rS` (encoding D16, log 2; the copy without flags G2, log 18;
faults and their order D5, D7, D8, log 17). -/
def Obligations.MovRegisterCopies : Prop :=
  (∀ d r, encode (.movRegReg d r) = [0x11, d, r]) ∧
  (∀ d r, FaultsPastTop (.movRegReg d r) 3) ∧
  (∀ d r s, ¬ PastTop s 3 → 9 < d.toNat ∨ 9 < r.toNat → TakesFault (.movRegReg d r) s .registerIndex) ∧
  ∀ (d r : Fin 10) s, ¬ PastTop s 3 →
    Completes (.movRegReg (indexByte d) (indexByte r)) s (LoadEffect d (s.reg r).toNat 3 s)

/-- R133: `mov rD, [a]`; the destination index is checked before the address (encoding D16, log 2; the copy without flags G2,
log 18; faults and their order D5, D7, D8, log 17). -/
def Obligations.MovMemoryLoadsRegister : Prop :=
  (∀ d a, encode (.movRegMem d a) = [0x12, d, hiByte a, loByte a]) ∧
  (∀ d a, FaultsPastTop (.movRegMem d a) 4) ∧
  (∀ d a s, ¬ PastTop s 4 → 9 < d.toNat → TakesFault (.movRegMem d a) s .registerIndex) ∧
  (∀ (d : Fin 10) s, ¬ PastTop s 4 → TakesFault (.movRegMem (indexByte d) 0xFFFF) s .addressRange) ∧
  ∀ (d : Fin 10) a s, ¬ PastTop s 4 → a ≠ 0xFFFF →
    Completes (.movRegMem (indexByte d) a) s (LoadEffect d (s.wordAt a.toNat) 4 s)

/-- R134: `mov rD, [[p]]`; the destination index is checked before the pointer cell, the cell before the address in it
(encoding D16, log 2; the copy without flags G2, log 18; faults and their order D5, D7, D8, log 17). -/
def Obligations.MovPointerLoadsRegister : Prop :=
  (∀ d p, encode (.movRegPtr d p) = [0x13, d, hiByte p, loByte p]) ∧
  (∀ d p, FaultsPastTop (.movRegPtr d p) 4) ∧
  (∀ d p s, ¬ PastTop s 4 → 9 < d.toNat → TakesFault (.movRegPtr d p) s .registerIndex) ∧
  (∀ (d : Fin 10) p s, ¬ PastTop s 4 → p = 0xFFFF ∨ s.wordAt p.toNat = 0xFFFF →
    TakesFault (.movRegPtr (indexByte d) p) s .addressRange) ∧
  ∀ (d : Fin 10) p s, ¬ PastTop s 4 → p ≠ 0xFFFF → s.wordAt p.toNat ≠ 0xFFFF →
    Completes (.movRegPtr (indexByte d) p) s (LoadEffect d (s.wordAt (s.wordAt p.toNat)) 4 s)

/-- R135: `mov [a], rS`; the address is checked before the index byte (encoding D16, log 2; the copy without flags G2, log 18;
faults and their order D5, D7, D8, log 17). -/
def Obligations.MovStoresToMemory : Prop :=
  (∀ a r, encode (.movMemReg a r) = [0x14, hiByte a, loByte a, r]) ∧
  (∀ a r, FaultsPastTop (.movMemReg a r) 4) ∧
  (∀ r s, ¬ PastTop s 4 → TakesFault (.movMemReg 0xFFFF r) s .addressRange) ∧
  (∀ a r s, ¬ PastTop s 4 → a ≠ 0xFFFF → 9 < r.toNat → TakesFault (.movMemReg a r) s .registerIndex) ∧
  ∀ a (r : Fin 10) s, s.mem.wf → ¬ PastTop s 4 → a ≠ 0xFFFF →
    resolveDst s (.memory a) = .ok (.mem a) ∧
    Completes (.movMemReg a (indexByte r)) s (StoreEffect a.toNat (s.reg r) 4 s)

/-- R136: `mov [[p]], rS`; the pointer cell and the address in it are checked before the index byte, and the cell is read before
the store, which goes where `resolveDst` says (encoding D16, log 2; the copy without flags G2, log 18;
faults and their order D5, D7, D8, log 17). -/
def Obligations.MovStoresThroughPointer : Prop :=
  (∀ p r, encode (.movPtrReg p r) = [0x15, hiByte p, loByte p, r]) ∧
  (∀ p r, FaultsPastTop (.movPtrReg p r) 4) ∧
  (∀ p r s, ¬ PastTop s 4 → p = 0xFFFF ∨ s.wordAt p.toNat = 0xFFFF → TakesFault (.movPtrReg p r) s .addressRange) ∧
  (∀ p r s, ¬ PastTop s 4 → p ≠ 0xFFFF → s.wordAt p.toNat ≠ 0xFFFF → 9 < r.toNat →
    TakesFault (.movPtrReg p r) s .registerIndex) ∧
  ∀ p (r : Fin 10) s, s.mem.wf → ¬ PastTop s 4 → p ≠ 0xFFFF → s.wordAt p.toNat ≠ 0xFFFF →
    ∃ a : Word, resolveDst s (.memoryPointer p) = .ok (.mem a) ∧ a.toNat = s.wordAt p.toNat ∧
      Completes (.movPtrReg p (indexByte r)) s (StoreEffect a.toNat (s.reg r) 4 s)

/-- The property the source gives of R134: a value V stored at A, A stored in the pointer cell P, and a read through P yields
V, whatever registers carry them, when the cell and the value's bytes do not overlap (that mov copies is G2, log 18). -/
def Obligations.PointerRoundTripYieldsTheValue : Prop :=
  ∀ (s : State) (a p : Word) (i j k : Fin 10), s.mem.wf → s.pc.toNat + 12 ≤ 65536 → a ≠ 0xFFFF → p ≠ 0xFFFF →
    s.reg j = a → a.toNat + 1 < p.toNat ∨ p.toNat + 1 < a.toNat →
    ∃ t u w, exec (.movMemReg a (indexByte i)) s = .next t ∧ exec (.movMemReg p (indexByte j)) t = .next u ∧
      exec (.movRegPtr (indexByte k) p) u = .next w ∧ w.reg k = s.reg i ∧ SameRegsBut k s w

/-- R44: the step right after a store fetches from memory as the store leaves it. Through either storing form of `mov`, to any
address, the bytes the next step finds are the stored ones at the two addresses stored to and the old ones elsewhere: an
instruction they make, of any length and changed in any part, is the one that runs, and an opcode that is not registered is
the fault (D12, log 2; that the advance wraps is D6, log 11; that mov copies is G2, log 18). -/
def Obligations.StoreIsSeenByTheNextFetch : Prop :=
  ∀ (s : State) (store : Instr) (a : Word) (r : Fin 10), s.running → s.mem.wf → ¬ PastTop s 4 → a ≠ 0xFFFF →
    (store = .movMemReg a (indexByte r) ∨
      ∃ p : Word, store = .movPtrReg p (indexByte r) ∧ p ≠ 0xFFFF ∧ s.wordAt p.toNat = a.toNat) →
    ∃ t, exec store s = .next t ∧
      (∀ i : Instr, (s.pc.toNat + 4) % 65536 + i.length ≤ 65536 →
        (∀ k, (hk : k < (encode i).length) →
          (encode i)[k] = s.byteAfterStore a.toNat (s.reg r) ((s.pc.toNat + 4) % 65536 + k)) →
        step t = exec i t) ∧
      (defaultOpTab.lookup (s.byteAfterStore a.toNat (s.reg r) ((s.pc.toNat + 4) % 65536)) = none →
        step t = .next (t.raiseFault .unregisteredOpcode))

/-! ## Arithmetic (modes D17, log 2; a flag is assigned false when its condition is, D9, log 12) -/

/-- R141 with R149: `inc rD, rS` (modes and operand bytes D17, log 2; OVERFLOW assigned false when its condition is, D9, log 12;
faults and their order D5, D7, D8, log 17). -/
def Obligations.IncAddsOne : Prop :=
  ArithMeans .inc 0x20 (fun _ src => (src + 1) % 65536) (fun f _ src => { f with overflow := decide (src = 0xFFFF) })

/-- R142 with R149: `dec rD, rS` (modes and operand bytes D17, log 2; UNDERFLOW assigned false when its condition is, D9, log 12;
faults and their order D5, D7, D8, log 17). -/
def Obligations.DecSubtractsOne : Prop :=
  ArithMeans .dec 0x21 (fun _ src => if src = 0 then 0xFFFF else src - 1)
    (fun f _ src => { f with underflow := decide (src = 0) })

/-- R143 with R149: `add rD, rS` (modes and operand bytes D17, log 2; OVERFLOW assigned false when its condition is, D9, log 12;
faults and their order D5, D7, D8, log 17). -/
def Obligations.AddAddsToAccumulator : Prop :=
  ArithMeans .add 0x22 (fun r0 src => (r0 + src) % 65536)
    (fun f r0 src => { f with overflow := decide (0xFFFF < r0 + src) })

/-- R144 with R149: `sub rD, rS` (modes and operand bytes D17, log 2; UNDERFLOW assigned false when its condition is, D9, log 12;
unsigned D20, log 19; faults and their order D5, D7, D8, log 17). -/
def Obligations.SubSubtractsFromAccumulator : Prop :=
  ArithMeans .sub 0x23 (fun r0 src => if r0 < src then r0 + 65536 - src else r0 - src)
    (fun f r0 src => { f with underflow := decide (r0 < src) })

/-- R145 with R149: `mul rD, rS` (modes and operand bytes D17, log 2; OVERFLOW assigned false when its condition is, D9, log 12;
faults and their order D5, D7, D8, log 17). -/
def Obligations.MulKeepsTheLowHalf : Prop :=
  ArithMeans .mul 0x24 (fun r0 src => (r0 * src) % 65536)
    (fun f r0 src => { f with overflow := decide (0xFFFF < r0 * src) })

/-- R146 with R149: `div rD, rS`, with its own fault, which is checked after both index bytes (modes and operand bytes D17, log 2;
unsigned D20, log 19; faults, their precision and order D4, D5, D7, D8, log 17). -/
def Obligations.DivDividesOrFaults : Prop :=
  (∀ d r, encode (.div d r) = [0x25, d, r]) ∧
  (∀ d r, FaultsPastTop (.div d r) 3) ∧
  (∀ d r s, ¬ PastTop s 3 → 9 < d.toNat ∨ 9 < r.toNat → TakesFault (.div d r) s .registerIndex) ∧
  (∀ (d r : Fin 10) s, ¬ PastTop s 3 → s.reg r = 0x0000 →
    TakesFault (.div (indexByte d) (indexByte r)) s .divideByZero) ∧
  ∀ (d r : Fin 10) s, ¬ PastTop s 3 → s.reg r ≠ 0x0000 →
    Completes (.div (indexByte d) (indexByte r)) s fun t =>
      (t.reg d).toNat = (s.reg 0).toNat / (s.reg r).toNat ∧ SameRegsBut d s t ∧ t.flags = s.flags ∧
      Advanced 3 s t ∧ SameMem s t ∧ Quiet s t

/-- R147 with R149: `shl rD, rS` (modes and operand bytes D17, log 2; faults and their order D5, D7, D8, log 17). -/
def Obligations.ShlDoubles : Prop :=
  ArithMeans .shl 0x26 (fun _ src => (2 * src) % 65536) (fun f _ _ => f)

/-- R148 with R149: `shr rD, rS` (modes and operand bytes D17, log 2; logical D20, log 19;
faults and their order D5, D7, D8, log 17). -/
def Obligations.ShrHalves : Prop :=
  ArithMeans .shr 0x27 (fun _ src => src / 2) (fun f _ _ => f)

/-! ## Jumps (pairing and absolute targets D18, log 2) -/

/-- R161, R163, R165, R167, R169, R171, R173, R175, R177 with R160 and R181: the nine immediate jumps (opcode
pairing and absolute target D18, log 2; that `R[0]` survives a jump not taken D10, log 13; the fault D5, log 17). -/
def Obligations.ImmediateJumpsGoToTheirTarget : Prop :=
  JumpImmMeans .jmpImm 0xE0 (fun _ => true) ∧
  JumpImmMeans .jeImm 0xE2 (fun f => f.equal) ∧
  JumpImmMeans .jneImm 0xE4 (fun f => !f.equal) ∧
  JumpImmMeans .jzImm 0xE6 (fun f => f.zero) ∧
  JumpImmMeans .jnzImm 0xE8 (fun f => !f.zero) ∧
  JumpImmMeans .jlImm 0xEA (fun f => f.less) ∧
  JumpImmMeans .jleImm 0xEC (fun f => f.less || f.equal) ∧
  JumpImmMeans .jgImm 0xEE (fun f => f.greater) ∧
  JumpImmMeans .jgeImm 0xF0 (fun f => f.greater || f.equal)

/-- R162, R164, R166, R168, R170, R172, R174, R176, R178 with R160 and R181: the nine register jumps; a bad index byte faults
even when the branch would not be taken (opcode pairing and absolute target D18, log 2; that `R[0]` survives a jump not taken
D10, log 13; faults and their order D5, D7, D8, log 17). -/
def Obligations.RegisterJumpsGoToTheirTarget : Prop :=
  JumpRegMeans .jmpReg 0xE1 (fun _ => true) ∧
  JumpRegMeans .jeReg 0xE3 (fun f => f.equal) ∧
  JumpRegMeans .jneReg 0xE5 (fun f => !f.equal) ∧
  JumpRegMeans .jzReg 0xE7 (fun f => f.zero) ∧
  JumpRegMeans .jnzReg 0xE9 (fun f => !f.zero) ∧
  JumpRegMeans .jlReg 0xEB (fun f => f.less) ∧
  JumpRegMeans .jleReg 0xED (fun f => f.less || f.equal) ∧
  JumpRegMeans .jgReg 0xEF (fun f => f.greater) ∧
  JumpRegMeans .jgeReg 0xF1 (fun f => f.greater || f.equal)

/-- R179: the truth table of the nine conditions, on all combinations of the flags, those `cmp` never makes included; each row
is GREATER, LESS, EQUAL, then jmp, je, jne, jl, jle, jg, jge. -/
def Obligations.JumpTruthTable : Prop :=
  ∀ f : Flags,
    ([f.greater, f.less, f.equal], [condJmp f, condJe f, condJne f, condJl f, condJle f, condJg f, condJge f]) ∈
      [([false, false, false], [true, false, true, false, false, false, false]),
       ([false, false, true], [true, true, false, false, true, false, true]),
       ([false, true, false], [true, false, true, true, true, false, false]),
       ([false, true, true], [true, true, false, true, true, false, true]),
       ([true, false, false], [true, false, true, false, false, true, true]),
       ([true, false, true], [true, true, false, false, true, true, true]),
       ([true, true, false], [true, false, true, true, true, true, true]),
       ([true, true, true], [true, true, false, true, true, true, true])] ∧
    [condJz f, condJnz f] = [f.zero, !f.zero]

/-! ## Who writes what, over all instructions -/

/-- R16: an instruction changes a flag only if the rule's table names it as a writer; the one other change is HALT by a fault,
with which no other flag changes (R191, D4, log 17; the row of stdin D22, log 16; that nop and mov write none G1, G2, log 18). -/
def Obligations.FlagsChangeOnlyByTheirWriters : Prop :=
  ∀ (i : Instr) (s t : State) (n : FlagName), exec i s = .next t → t.flags.get n ≠ s.flags.get n →
    n ∈ flagsWritten i.form.mnemonic ∨ (n = .halt ∧ ∃ k, t = s.raiseFault k)

/-- R12: an instruction changes a register only if it is its destination operand, or it is `R[0]` and the instruction is `stdin`
or `int`. R12 also lists writeback with destination mode `none` as a writer of `R[0]`: that hlt, nop, stdout, cmp and a jump
not taken leave `R[0]` as it was is R91, the spec's own choice (D10, log 13: DESIGN CHOICE), and that a fault changes no
register is R191 (D4, log 17). -/
def Obligations.RegistersChangeOnlyByTheirWriters : Prop :=
  ∀ (i : Instr) (s t : State) (j : Fin 10), exec i s = .next t → t.reg j ≠ s.reg j →
    i.form.dst = .register (indexByte j) ∨ (j = 0 ∧ i.form.mnemonic ∈ [.stdin, .int])

/-- R37, the last column: only the two storing forms of `mov` change memory, and only the two bytes at the address their
destination resolves to (the table's two storing forms D16, log 2; that a fault stores nothing D4, log 17). -/
def Obligations.MemoryChangesOnlyByMovStores : Prop :=
  ∀ (i : Instr) (s t : State) (b : Nat), s.mem.wf → exec i s = .next t → t.byteAt b ≠ s.byteAt b →
    ∃ a : Word, resolveDst s i.form.dst = .ok (.mem a) ∧ (b = a.toNat ∨ b = a.toNat + 1) ∧
      ((∃ r, i = .movMemReg a r) ∨ ∃ p r, i = .movPtrReg p r ∧ a.toNat = s.wordAt p.toNat)

/-- R14: in one instruction one of these: a fault leaves `PC`, the automatic advance moves it by `ILEN`, or a jump has put its
source value into it (the wrap of the advance is D6, log 11; that a fault leaves `PC` D4, log 17; that hlt advances D11,
log 15; that a jump's operand is the target itself D18, log 2). -/
def Obligations.ProgramCounterMovesOneWay : Prop :=
  ∀ (i : Instr) (s t : State), exec i s = .next t →
    (∃ k, t = s.raiseFault k ∧ t.pc = s.pc) ∨ Advanced i.length s t ∨
    (i.form.mnemonic ∈ jumpMnemonics ∧ resolveSrc s i.form.src = .ok t.pc)

/-- R22: a step never rewrites the trace; it adds at most one event (one call a step D23, one attempt D22; the trace is the
model's record, log 5). -/
def Obligations.TraceOnlyGrows : Prop :=
  ∀ s t : State, step s = .next t → ∃ events, t.ports.trace = s.ports.trace ++ events ∧ events.length ≤ 1

/-- R16 and R17: no program can observe DATA, OVERFLOW, UNDERFLOW or FAULT: runs of any length from states that differ only in
them stay equal in everything else, in one and the same environment: equal counts of draws get equal answers (DESIGN CHOICE,
log 14). -/
def Obligations.UnreadFlagsAreInvisibleToPrograms : Prop :=
  ∀ (n : Nat) (s t s' t' : State), SameToProgram s t → Sys2Proof.core.run n s = .next s' →
    Sys2Proof.core.run n t = .next t' → SameToProgram s' t'

/-! ## Halting, reset and the host -/

/-- R199: Halted is entered only by `hlt`, which leaves FAULT as it was, or by a fault, which sets it and HALT and changes
nothing else (R191; that faults are precise is D4, the kinds D3, log 17: DESIGN CHOICE). -/
def Obligations.HaltIsEnteredByHltOrFault : Prop :=
  ∀ s t : State, s.running → step s = .next t → t.flags.halt = true →
    (s.byteAt s.pc.toNat = 0x00 ∧ t.fault = s.fault) ∨ ∃ k, k ≠ .none ∧ t = s.raiseFault k

/-- Every step keeps the invariant, from every state that has it, reached or not: memory stays in canonical form below 65536
and a fault implies HALT (R17; FAULT is D3, log 17; the canonical form is the model's own, log 7). -/
def Obligations.StepKeepsTheInvariant : Prop :=
  ∀ s t : State, s.Inv → step s = .next t → t.Inv

/-- The state after reset has the invariant (FAULT is D3, log 17; the canonical form is the model's own, log 7). -/
def Obligations.ResetHasTheInvariant : Prop :=
  State.reset.Inv

/-- R21 and R220: reset, in any state, zeroes registers, flags and memory, so the core is Running; PC is ENTRY (the spec's own
choice, D24, log 1) and FAULT is None (the register and its kinds are D3, log 17); the record of the collaborators goes on
(DESIGN CHOICE, log 9). -/
def Obligations.ResetZeroesTheMachine : Prop :=
  ∀ s : State,
    (∀ i, s.reinit.reg i = 0x0000) ∧ (∀ n, s.reinit.flags.get n = false) ∧ (∀ a, s.reinit.byteAt a = 0x00) ∧
    s.reinit.pc = Config.entry ∧ s.reinit.fault = .none ∧ s.reinit.running ∧ s.reinit.ports = s.ports

/-- The model's reset state: PC is ENTRY at its default 0x0000 (D24, log 1: the spec's own choice), the record of the
collaborators is empty (DESIGN CHOICE, log 5), and the first step over zeroed memory is `hlt`: a run that ended well
(R100). That `PC` is then 0x0001 is the spec's own choice (D11, log 15: DESIGN CHOICE), as are `R[0]` kept (D10, log 13), the
one-byte form (D13, log 2) and FAULT (D3, log 17). -/
def Obligations.UnloadedCoreHaltsOnItsFirstStep : Prop :=
  State.reset.pc = 0x0000 ∧ ∃ t, step State.reset = .next t ∧ t.endedWell ∧ t.pc = 0x0001 ∧ SameRegs State.reset t ∧
    SameMem State.reset t ∧ t.ports = State.reset.ports

/-- R222 and R223: the host's three moves. Reset is allowed in any session, gives the reset state, and opens it for a load
again. A step is allowed in any session, takes the core's step, and closes it. The load is refused once a step has been
requested; before that it puts the bytes of the image where it says, sets PC, and changes nothing else (D25, log 9). -/
def Obligations.HostLoadsOnlyBeforeTheFirstStep : Prop :=
  (∀ h : Session, h.move .reset = some ⟨h.core.reinit, false⟩) ∧
  (∀ h : Session, ∃ t, step h.core = .next t ∧ h.move .step = some ⟨t, true⟩) ∧
  (∀ (h : Session) (base entry : Word) (image : List Byte), h.stepped = true → h.move (.load base image entry) = none) ∧
  ∀ (h : Session) (base entry : Word) (image : List Byte), h.core.mem.wf → base.toNat + image.length ≤ 65536 →
    h.stepped = false → ∃ h', h.move (.load base image entry) = some h' ∧ h'.stepped = false ∧ h'.core.pc = entry ∧
      (∀ k, (hk : k < image.length) → h'.core.byteAt (base.toNat + k) = image[k]) ∧
      (∀ b, b < base.toNat ∨ base.toNat + image.length ≤ b → h'.core.byteAt b = h.core.byteAt b) ∧
      SameRegs h.core h'.core ∧ h'.core.flags = h.core.flags ∧ Quiet h.core h'.core
end

