-- ==== Sys2Proof/Laws/Assembler.lean ====
section
/-! SUPPORT. The opcode table read both ways (30_encoding.md R70 to R72): no two rows of the default table share a descriptor,
so the assembler's lookup is the inverse of the decoder's. -/

namespace Sys2Proof

/-- Every byte is a slot. -/
theorem mem_allOpcodes (op : Byte) : op ∈ allOpcodes :=
  List.mem_map.mpr ⟨op.toNat, List.mem_range.mpr op.isLt, BitVec.eq_of_toNat_eq (by simp)⟩

/-- What is in a slot stands in a row of the table. -/
theorem OpTab.mem_of_lookup {T : OpTab} {op : Byte} {d : Descriptor} (h : T.lookup op = some d) : (op, d) ∈ T := by
  simp only [OpTab.lookup, Option.map_eq_some_iff] at h
  obtain ⟨⟨op', d'⟩, hf, rfl⟩ := h
  have he : op' = op := by simpa using List.find?_some hf
  subst he
  exact List.mem_of_find?_eq_some hf

/-- No two rows of 30_encoding.md R62 share mnemonic, source mode and destination mode. -/
theorem defaultOpTab_nodup : (defaultOpTab.map (·.2)).Nodup := by decide

/-- One descriptor of the default table, one slot. -/
theorem defaultOpTab_slot_unique {op op' : Byte} {d : Descriptor} (h : defaultOpTab.lookup op = some d)
    (h' : defaultOpTab.lookup op' = some d) : op = op' :=
  congrArg Prod.fst
    (List.inj_on_of_nodup_map defaultOpTab_nodup (OpTab.mem_of_lookup h) (OpTab.mem_of_lookup h') rfl)

/-- The assembler's lookup finds the slot a descriptor of the default table stands in (30_encoding.md R72). -/
theorem defaultOpTab_lookupByMnemonic {op : Byte} {d : Descriptor} (h : defaultOpTab.lookup op = some d) :
    defaultOpTab.lookupByMnemonic d.mnemonic d.srcMode d.dstMode = some op := by
  unfold OpTab.lookupByMnemonic
  cases hf : allOpcodes.find? (fun o => defaultOpTab.lookup o == some ⟨d.mnemonic, d.srcMode, d.dstMode⟩) with
  | none => exact absurd h (by simpa using List.find?_eq_none.mp hf op (mem_allOpcodes op))
  | some o =>
    have ho := List.find?_some hf
    simp only [beq_iff_eq] at ho
    rw [defaultOpTab_slot_unique h ho]

end Sys2Proof
end

