-- ==== Sys2Proof/Laws/Fields.lean ====
section
/-! SUPPORT. One lemma per field per update of the flags and of the collaborators' record, so that no later proof unfolds them. -/

namespace Sys2Proof.Machine

open Sys2Proof

@[simp] theorem Flags.setOverflow_halt (f : Flags) (n : Int) : (f.setOverflow n).halt = f.halt := rfl
@[simp] theorem Flags.setOverflow_greater (f : Flags) (n : Int) : (f.setOverflow n).greater = f.greater := rfl
@[simp] theorem Flags.setOverflow_less (f : Flags) (n : Int) : (f.setOverflow n).less = f.less := rfl
@[simp] theorem Flags.setOverflow_equal (f : Flags) (n : Int) : (f.setOverflow n).equal = f.equal := rfl
@[simp] theorem Flags.setOverflow_zero (f : Flags) (n : Int) : (f.setOverflow n).zero = f.zero := rfl
@[simp] theorem Flags.setOverflow_data (f : Flags) (n : Int) : (f.setOverflow n).data = f.data := rfl
@[simp] theorem Flags.setOverflow_overflow (f : Flags) (n : Int) : (f.setOverflow n).overflow = decide (n > 0xFFFF) := rfl
@[simp] theorem Flags.setOverflow_underflow (f : Flags) (n : Int) : (f.setOverflow n).underflow = f.underflow := rfl

@[simp] theorem Flags.setUnderflow_halt (f : Flags) (n : Int) : (f.setUnderflow n).halt = f.halt := rfl
@[simp] theorem Flags.setUnderflow_greater (f : Flags) (n : Int) : (f.setUnderflow n).greater = f.greater := rfl
@[simp] theorem Flags.setUnderflow_less (f : Flags) (n : Int) : (f.setUnderflow n).less = f.less := rfl
@[simp] theorem Flags.setUnderflow_equal (f : Flags) (n : Int) : (f.setUnderflow n).equal = f.equal := rfl
@[simp] theorem Flags.setUnderflow_zero (f : Flags) (n : Int) : (f.setUnderflow n).zero = f.zero := rfl
@[simp] theorem Flags.setUnderflow_data (f : Flags) (n : Int) : (f.setUnderflow n).data = f.data := rfl
@[simp] theorem Flags.setUnderflow_overflow (f : Flags) (n : Int) : (f.setUnderflow n).overflow = f.overflow := rfl
@[simp] theorem Flags.setUnderflow_underflow (f : Flags) (n : Int) : (f.setUnderflow n).underflow = decide (n < 0) := rfl

@[simp] theorem Flags.compare_halt (f : Flags) (r v : Word) : (f.compare r v).halt = f.halt := rfl
@[simp] theorem Flags.compare_greater (f : Flags) (r v : Word) : (f.compare r v).greater = decide (r.toNat > v.toNat) := rfl
@[simp] theorem Flags.compare_less (f : Flags) (r v : Word) : (f.compare r v).less = decide (r.toNat < v.toNat) := rfl
@[simp] theorem Flags.compare_equal (f : Flags) (r v : Word) : (f.compare r v).equal = decide (r = v) := rfl
@[simp] theorem Flags.compare_zero (f : Flags) (r v : Word) : (f.compare r v).zero = decide (r = 0x0000) := rfl
@[simp] theorem Flags.compare_data (f : Flags) (r v : Word) : (f.compare r v).data = f.data := rfl
@[simp] theorem Flags.compare_overflow (f : Flags) (r v : Word) : (f.compare r v).overflow = f.overflow := rfl
@[simp] theorem Flags.compare_underflow (f : Flags) (r v : Word) : (f.compare r v).underflow = f.underflow := rfl

@[simp] theorem Flags.input_halt (f : Flags) (a : Option Byte) : (f.input a).halt = f.halt := rfl
@[simp] theorem Flags.input_greater (f : Flags) (a : Option Byte) : (f.input a).greater = f.greater := rfl
@[simp] theorem Flags.input_less (f : Flags) (a : Option Byte) : (f.input a).less = f.less := rfl
@[simp] theorem Flags.input_equal (f : Flags) (a : Option Byte) : (f.input a).equal = f.equal := rfl
@[simp] theorem Flags.input_zero (f : Flags) (a : Option Byte) : (f.input a).zero = a.isNone := rfl
@[simp] theorem Flags.input_data (f : Flags) (a : Option Byte) : (f.input a).data = a.isSome := rfl
@[simp] theorem Flags.input_overflow (f : Flags) (a : Option Byte) : (f.input a).overflow = f.overflow := rfl
@[simp] theorem Flags.input_underflow (f : Flags) (a : Option Byte) : (f.input a).underflow = f.underflow := rfl

@[simp] theorem Ports.outByte_trace (p : Ports) (b : Byte) : (p.outByte b).trace = p.trace ++ [.out b] := rfl
@[simp] theorem Ports.outByte_draws (p : Ports) (b : Byte) : (p.outByte b).draws = p.draws := rfl
@[simp] theorem Ports.outByte_inputs (p : Ports) (b : Byte) : (p.outByte b).inputs = p.inputs := rfl
@[simp] theorem Ports.outByte_answers (p : Ports) (b : Byte) : (p.outByte b).answers = p.answers := rfl

@[simp] theorem Ports.inByte_trace (p : Ports) : p.inByte.trace = p.trace ++ [.inp p.nextInput] := rfl
@[simp] theorem Ports.inByte_draws (p : Ports) : p.inByte.draws = p.draws + 1 := rfl
@[simp] theorem Ports.inByte_inputs (p : Ports) : p.inByte.inputs = p.inputs.tail := rfl
@[simp] theorem Ports.inByte_answers (p : Ports) : p.inByte.answers = p.answers := rfl

@[simp] theorem Ports.callService_trace (p : Ports) (n : Service) (r : Vector Word 10) : (p.callService n r).trace = p.trace ++ [.call n r (p.nextAnswer n r)] := rfl
@[simp] theorem Ports.callService_draws (p : Ports) (n : Service) (r : Vector Word 10) : (p.callService n r).draws = p.draws + 1 := rfl
@[simp] theorem Ports.callService_inputs (p : Ports) (n : Service) (r : Vector Word 10) : (p.callService n r).inputs = p.inputs := rfl
@[simp] theorem Ports.callService_answers (p : Ports) (n : Service) (r : Vector Word 10) : (p.callService n r).answers = p.answers.tail := rfl

/-- An answer the environment has fixed is the one that comes. -/
theorem Ports.nextInput_cons {p : Ports} {a : Option Byte} {rest : List (Option Byte)} (h : p.inputs = a :: rest) :
    p.nextInput = a := by simp [Ports.nextInput, h]

/-- A service answer the environment has fixed is the one that comes. -/
theorem Ports.nextAnswer_cons {p : Ports} {a : Option Word} {rest : List (Option Word)} (h : p.answers = a :: rest)
    (n : Service) (r : Vector Word 10) : p.nextAnswer n r = a := by simp [Ports.nextAnswer, h]

end Sys2Proof.Machine
end

