-- ==== Sys2Proof/Laws/State.lean ====
section
/-! SUPPORT. One lemma per field per update of the state, so that no proof unfolds a record update; and the registers. -/

namespace Sys2Proof.Machine

open Sys2Proof

@[simp] theorem State.setPc_regs (s : State) (p : Word) : (s.setPc p).regs = s.regs := rfl
@[simp] theorem State.setPc_pc (s : State) (p : Word) : (s.setPc p).pc = p := rfl
@[simp] theorem State.setPc_flags (s : State) (p : Word) : (s.setPc p).flags = s.flags := rfl
@[simp] theorem State.setPc_fault (s : State) (p : Word) : (s.setPc p).fault = s.fault := rfl
@[simp] theorem State.setPc_mem (s : State) (p : Word) : (s.setPc p).mem = s.mem := rfl
@[simp] theorem State.setPc_ports (s : State) (p : Word) : (s.setPc p).ports = s.ports := rfl

@[simp] theorem State.setFlags_regs (s : State) (f : Flags) : (s.setFlags f).regs = s.regs := rfl
@[simp] theorem State.setFlags_pc (s : State) (f : Flags) : (s.setFlags f).pc = s.pc := rfl
@[simp] theorem State.setFlags_flags (s : State) (f : Flags) : (s.setFlags f).flags = f := rfl
@[simp] theorem State.setFlags_fault (s : State) (f : Flags) : (s.setFlags f).fault = s.fault := rfl
@[simp] theorem State.setFlags_mem (s : State) (f : Flags) : (s.setFlags f).mem = s.mem := rfl
@[simp] theorem State.setFlags_ports (s : State) (f : Flags) : (s.setFlags f).ports = s.ports := rfl

@[simp] theorem State.setMem_regs (s : State) (m : Memory) : (s.setMem m).regs = s.regs := rfl
@[simp] theorem State.setMem_pc (s : State) (m : Memory) : (s.setMem m).pc = s.pc := rfl
@[simp] theorem State.setMem_flags (s : State) (m : Memory) : (s.setMem m).flags = s.flags := rfl
@[simp] theorem State.setMem_fault (s : State) (m : Memory) : (s.setMem m).fault = s.fault := rfl
@[simp] theorem State.setMem_mem (s : State) (m : Memory) : (s.setMem m).mem = m := rfl
@[simp] theorem State.setMem_ports (s : State) (m : Memory) : (s.setMem m).ports = s.ports := rfl

@[simp] theorem State.setPorts_regs (s : State) (p : Ports) : (s.setPorts p).regs = s.regs := rfl
@[simp] theorem State.setPorts_pc (s : State) (p : Ports) : (s.setPorts p).pc = s.pc := rfl
@[simp] theorem State.setPorts_flags (s : State) (p : Ports) : (s.setPorts p).flags = s.flags := rfl
@[simp] theorem State.setPorts_fault (s : State) (p : Ports) : (s.setPorts p).fault = s.fault := rfl
@[simp] theorem State.setPorts_mem (s : State) (p : Ports) : (s.setPorts p).mem = s.mem := rfl
@[simp] theorem State.setPorts_ports (s : State) (p : Ports) : (s.setPorts p).ports = p := rfl

@[simp] theorem State.setReg_regs (s : State) (i : Fin 10) (v : Word) : (s.setReg i v).regs = s.regs.set i v := rfl
@[simp] theorem State.setReg_pc (s : State) (i : Fin 10) (v : Word) : (s.setReg i v).pc = s.pc := rfl
@[simp] theorem State.setReg_flags (s : State) (i : Fin 10) (v : Word) : (s.setReg i v).flags = s.flags := rfl
@[simp] theorem State.setReg_fault (s : State) (i : Fin 10) (v : Word) : (s.setReg i v).fault = s.fault := rfl
@[simp] theorem State.setReg_mem (s : State) (i : Fin 10) (v : Word) : (s.setReg i v).mem = s.mem := rfl
@[simp] theorem State.setReg_ports (s : State) (i : Fin 10) (v : Word) : (s.setReg i v).ports = s.ports := rfl

@[simp] theorem State.raiseFault_regs (s : State) (k : FaultKind) : (s.raiseFault k).regs = s.regs := rfl
@[simp] theorem State.raiseFault_pc (s : State) (k : FaultKind) : (s.raiseFault k).pc = s.pc := rfl
@[simp] theorem State.raiseFault_flags (s : State) (k : FaultKind) : (s.raiseFault k).flags = { s.flags with halt := true } := rfl
@[simp] theorem State.raiseFault_fault (s : State) (k : FaultKind) : (s.raiseFault k).fault = k := rfl
@[simp] theorem State.raiseFault_mem (s : State) (k : FaultKind) : (s.raiseFault k).mem = s.mem := rfl
@[simp] theorem State.raiseFault_ports (s : State) (k : FaultKind) : (s.raiseFault k).ports = s.ports := rfl

@[simp] theorem State.setPc_reg (s : State) (p : Word) (j : Fin 10) : (s.setPc p).reg j = s.reg j := rfl
@[simp] theorem State.setFlags_reg (s : State) (f : Flags) (j : Fin 10) : (s.setFlags f).reg j = s.reg j := rfl
@[simp] theorem State.setMem_reg (s : State) (m : Memory) (j : Fin 10) : (s.setMem m).reg j = s.reg j := rfl
@[simp] theorem State.setPorts_reg (s : State) (p : Ports) (j : Fin 10) : (s.setPorts p).reg j = s.reg j := rfl
@[simp] theorem State.raiseFault_reg (s : State) (k : FaultKind) (j : Fin 10) : (s.raiseFault k).reg j = s.reg j := rfl

@[simp] theorem State.reg_setReg_self (s : State) (i : Fin 10) (v : Word) : (s.setReg i v).reg i = v := by
  simp [State.reg, State.setReg]

theorem State.reg_setReg_ne (s : State) (i j : Fin 10) (v : Word) (h : j ≠ i) : (s.setReg i v).reg j = s.reg j := by
  have h' : (i : Nat) ≠ j := fun e => h (Fin.ext e.symm)
  simp [State.reg, State.setReg, h']

/-- A register file is equal to another when every register is. -/
theorem State.regs_eq_of_reg (s t : State) (h : ∀ i, t.reg i = s.reg i) : t.regs = s.regs := by
  apply Vector.ext
  intro i hi
  exact h ⟨i, hi⟩

/-- Writing a register with the value it holds changes nothing: writeback of `R[0]` into `R[0]`. -/
@[simp] theorem State.setReg_reg_self (s : State) (i : Fin 10) : s.setReg i (s.reg i) = s := by
  simp [State.setReg, State.reg]

@[simp] theorem State.setReg_setReg_self (s : State) (i : Fin 10) (v w : Word) : (s.setReg i v).setReg i w = s.setReg i w := by
  simp [State.setReg]

@[simp] theorem State.setMem_setPc (s : State) (m : Memory) (p : Word) : (s.setMem m).setPc p = (s.setPc p).setMem m := rfl

@[simp] theorem State.setFlags_self (s : State) : s.setFlags s.flags = s := rfl

@[simp] theorem State.setPorts_self (s : State) : s.setPorts s.ports = s := rfl

end Sys2Proof.Machine
end

