-- ==== Sys2Proof/Laws/Memory.lean ====
section
/-! SUPPORT. Memory: a read after a write, and the canonical form that every memory operation keeps. -/

namespace Sys2Proof.Machine

open Sys2Proof

/-- An address below every listed one reads as an unlisted byte. -/
theorem Memory.read_of_lt (m : Memory) (a : Nat) (h : ∀ c ∈ m, a < c.1) : m.read a = unlistedByte := by
  induction m with
  | nil => rfl
  | cons c m ih =>
    have hc := h c (by simp)
    simp only [Memory.read]
    rw [if_neg (by omega)]
    exact ih fun c hc => h c (by simp [hc])

theorem Memory.wf_nil : Memory.wf [] := ⟨List.Pairwise.nil, by simp⟩

theorem Memory.wf_tail {c : Host.Cell} {m : Memory} (h : Memory.wf (c :: m)) : m.wf :=
  ⟨(List.pairwise_cons.mp h.1).2, fun x hx => h.2 x (by simp [hx])⟩

theorem Memory.wf_head {c : Host.Cell} {m : Memory} (h : Memory.wf (c :: m)) : ∀ x ∈ m, c.1 < x.1 :=
  (List.pairwise_cons.mp h.1).1

/-- What a write can list: an old entry, or the new one when its byte is kept. -/
theorem Memory.mem_write (m : Memory) (a : Nat) (b : Byte) (x : Host.Cell) (hx : x ∈ m.write a b) :
    x ∈ m ∨ (x = (a, b) ∧ b ≠ unlistedByte) := by
  induction m with
  | nil =>
    simp only [Memory.write] at hx
    split at hx <;> simp_all
  | cons c m ih =>
    obtain ⟨k, v⟩ := c
    simp only [Memory.write] at hx
    split at hx
    · split at hx
      · exact .inl hx
      · rename_i hb
        rcases List.mem_cons.mp hx with h | h
        · exact .inr ⟨h, hb⟩
        · exact .inl h
    · split at hx
      · split at hx
        · exact .inl (by simp [hx])
        · rename_i hb
          rcases List.mem_cons.mp hx with h | h
          · exact .inr ⟨h, hb⟩
          · exact .inl (by simp [h])
      · rcases List.mem_cons.mp hx with h | h
        · exact .inl (by simp [h])
        · rcases ih h with h | h
          · exact .inl (by simp [h])
          · exact .inr h

/-- A write keeps the canonical form. -/
theorem Memory.write_wf (m : Memory) (a : Nat) (b : Byte) (h : m.wf) (ha : a < 65536) : (m.write a b).wf := by
  refine ⟨?_, ?_⟩
  · induction m with
    | nil =>
      simp only [Memory.write]
      split <;> simp
    | cons c m ih =>
      obtain ⟨k, v⟩ := c
      have hlt := Memory.wf_head h
      simp only [Memory.write]
      split
      · split
        · exact h.1
        · rename_i hak _
          refine List.pairwise_cons.mpr ⟨?_, h.1⟩
          intro x hx
          rcases List.mem_cons.mp hx with rfl | hx
          · exact hak
          · exact Nat.lt_trans hak (hlt x hx)
      · split
        · rename_i _ hak
          subst hak
          split
          · exact (Memory.wf_tail h).1
          · exact List.pairwise_cons.mpr ⟨hlt, (Memory.wf_tail h).1⟩
        · refine List.pairwise_cons.mpr ⟨?_, ih (Memory.wf_tail h)⟩
          intro x hx
          rcases Memory.mem_write m a b x hx with hx | ⟨rfl, -⟩
          · exact hlt x hx
          · show k < a
            omega
  · intro x hx
    rcases Memory.mem_write m a b x hx with hx | ⟨rfl, hb⟩
    · exact h.2 x hx
    · exact ⟨ha, hb⟩

/-- A byte written is the byte read. -/
theorem Memory.read_write_self (m : Memory) (a : Nat) (b : Byte) (h : m.wf) : (m.write a b).read a = b := by
  induction m with
  | nil =>
    simp only [Memory.write]
    split
    · rename_i hb; simp [Memory.read, hb]
    · simp [Memory.read]
  | cons c m ih =>
    obtain ⟨k, v⟩ := c
    have hlt := Memory.wf_head h
    simp only [Memory.write]
    split
    · rename_i hak
      split
      · rename_i hb
        rw [hb]
        apply Memory.read_of_lt
        intro x hx
        rcases List.mem_cons.mp hx with rfl | hx
        · exact hak
        · exact Nat.lt_trans hak (hlt x hx)
      · simp [Memory.read]
    · split
      · rename_i hak
        subst hak
        split
        · rename_i hb
          rw [hb]
          exact Memory.read_of_lt m a hlt
        · simp [Memory.read]
      · rename_i hak
        simp only [Memory.read]
        rw [if_neg (by omega)]
        exact ih (Memory.wf_tail h)

/-- Every other byte reads as before. -/
theorem Memory.read_write_ne (m : Memory) (a a' : Nat) (b : Byte) (h : m.wf) (hne : a' ≠ a) :
    (m.write a b).read a' = m.read a' := by
  induction m with
  | nil =>
    simp only [Memory.write]
    split
    · rfl
    · simp only [Memory.read]
      rw [if_neg (by omega)]
  | cons c m ih =>
    obtain ⟨k, v⟩ := c
    simp only [Memory.write]
    split
    · split
      · rfl
      · simp only [Memory.read]
        rw [if_neg (by omega)]
    · split
      · rename_i hak
        subst hak
        split
        · simp only [Memory.read]
          rw [if_neg (by omega)]
        · simp only [Memory.read]
          rw [if_neg (by omega), if_neg (by omega)]
      · simp only [Memory.read]
        rw [ih (Memory.wf_tail h)]

/-- Storing a run of bytes keeps the canonical form: no byte above 0xFFFF is listed. -/
theorem Memory.writeBytes_wf (m : Memory) (a : Nat) (bs : List Byte) (h : m.wf) : (m.writeBytes a bs).wf := by
  induction bs generalizing m a with
  | nil => exact h
  | cons b bs ih =>
    simp only [Memory.writeBytes]
    split
    · exact h
    · exact ih _ _ (Memory.write_wf m a b h (by omega))

/-- Everything `memWrite2` can do. -/
theorem memWrite2_ok {s t : State} {a : Nat} {v : Word} (h : memWrite2 s a v = .ok t) :
    a + 1 ≤ 0xFFFF ∧ t = s.setMem ((s.mem.write a (hiByte v)).write (a + 1) (loByte v)) := by
  unfold memWrite2 at h
  split at h
  · cases h
  · exact ⟨by omega, by cases h; rfl⟩

/-- The store keeps the canonical form. -/
theorem memWrite2_wf {s t : State} {a : Nat} {v : Word} (h : memWrite2 s a v = .ok t) (hw : s.mem.wf) : t.mem.wf := by
  obtain ⟨ha, rfl⟩ := memWrite2_ok h
  exact Memory.write_wf _ _ _ (Memory.write_wf _ _ _ hw (by omega)) (by omega)

/-- What the bytes are after a store. -/
theorem Memory.read_write2 (m : Memory) (a b : Nat) (x y : Byte) (h : m.wf) (ha : a < 65536) :
    ((m.write a x).write (a + 1) y).read b = if b = a then x else if b = a + 1 then y else m.read b := by
  have h1 := Memory.write_wf m a x h ha
  by_cases hb : b = a
  · subst hb
    rw [if_pos rfl, Memory.read_write_ne _ _ _ _ h1 (by omega), Memory.read_write_self _ _ _ h]
  · rw [if_neg hb]
    by_cases hb' : b = a + 1
    · subst hb'
      rw [if_pos rfl, Memory.read_write_self _ _ _ h1]
    · rw [if_neg hb', Memory.read_write_ne _ _ _ _ h1 hb', Memory.read_write_ne _ _ _ _ h hb]

/-- Reset's memory is canonical. -/
theorem State.reset_mem_wf : State.reset.mem.wf := Memory.wf_nil

/-- Placing an instruction for the next fetch keeps the canonical form. -/
theorem storeInstr_wf (m : Memory) (a nbits w : Nat) (h : m.wf) : (m.writeBytes a (tableBytes nbits w)).wf :=
  Memory.writeBytes_wf m a _ h

end Sys2Proof.Machine
end

