-- ==== Sys2Proof/Laws/Ops.lean ====
section
/-! SUPPORT. Each shared operation said once: everything it can do, for later proofs to cite instead of unfolding it. -/

namespace Sys2Proof.Machine

open Sys2Proof

theorem regIndex_of_le {b : Byte} (h : b.toNat ≤ 9) : regIndex b = .ok ⟨b.toNat, by omega⟩ := by
  simp [regIndex, show b.toNat < 10 by omega]

theorem regIndex_of_gt {b : Byte} (h : 9 < b.toNat) : regIndex b = .error .registerIndex := by
  simp [regIndex, show ¬ b.toNat < 10 by omega]

/-- Everything `regIndex` can do. -/
theorem regIndex_cases (b : Byte) :
    (∃ i : Fin 10, (i : Nat) = b.toNat ∧ regIndex b = .ok i) ∨ (9 < b.toNat ∧ regIndex b = .error .registerIndex) := by
  by_cases h : b.toNat ≤ 9
  · exact .inl ⟨⟨b.toNat, by omega⟩, rfl, regIndex_of_le h⟩
  · exact .inr ⟨by omega, regIndex_of_gt (by omega)⟩

/-- Everything `memRead1` can do at an address the program counter can hold. -/
theorem memRead1_ok {s : State} {a : Nat} (h : a ≤ 0xFFFF) : memRead1 s a = .ok (s.mem.read a) := by
  simp [memRead1]; omega

/-- Everything `memRead2` can do. -/
theorem memRead2_cases (s : State) (a : Nat) :
    (a + 1 ≤ 0xFFFF ∧ memRead2 s a = .ok (beWord (s.mem.read a) (s.mem.read (a + 1)))) ∨
    (0xFFFF < a + 1 ∧ memRead2 s a = .error .addressRange) := by
  by_cases h : a + 1 > 0xFFFF
  · exact .inr ⟨h, by simp [memRead2, h]⟩
  · exact .inl ⟨by omega, by simp [memRead2, h]⟩

/-- Everything `storeLoc` can do. -/
theorem storeLoc_ok {a : Word} {l : Loc} (h : storeLoc a = .ok l) : a ≠ 0xFFFF ∧ l = .mem a := by
  unfold storeLoc at h
  split at h
  · cases h
  · cases h; exact ⟨‹_›, rfl⟩

/-- A location in memory from `resolveDst` is never the last address: writeback cannot fault (40_execution_cycle.md R87). -/
theorem resolveDst_mem {s : State} {d : DstOperand} {a : Word} (h : resolveDst s d = .ok (.mem a)) : a.toNat + 1 ≤ 0xFFFF := by
  have key : ∀ w : Word, storeLoc w = .ok (.mem a) → a.toNat + 1 ≤ 0xFFFF := by
    intro w hw
    obtain ⟨hne, he⟩ := storeLoc_ok hw
    injection he with he
    subst he
    have : a.toNat ≠ 0xFFFF := fun e => hne (BitVec.eq_of_toNat_eq e)
    omega
  cases d with
  | none => cases h
  | register b =>
    rcases regIndex_cases b with ⟨i, -, hi⟩ | ⟨-, hi⟩ <;> simp [resolveDst, hi, Except.map] at h
  | memory w => exact key w h
  | memoryPointer p =>
    rcases memRead2_cases s p.toNat with ⟨-, hr⟩ | ⟨-, hr⟩
    · simp only [resolveDst, hr, bind, Except.bind] at h
      exact key _ h
    · simp [resolveDst, hr, bind, Except.bind] at h

/-- Everything `writeback` can do. -/
theorem writeback_ok {s t : State} {loc : Loc} {v : Word} (h : writeback s loc v = .ok t) :
    (∃ i, loc = .reg i ∧ t = s.setReg i v) ∨
    (∃ a, loc = .mem a ∧ a.toNat + 1 ≤ 0xFFFF ∧
      t = s.setMem ((s.mem.write a.toNat (hiByte v)).write (a.toNat + 1) (loByte v))) := by
  cases loc with
  | reg i => cases h; exact .inl ⟨i, rfl, rfl⟩
  | mem a => obtain ⟨h1, h2⟩ := memWrite2_ok h; exact .inr ⟨a, rfl, h1, h2⟩

/-- Everything `commit` can do. -/
theorem commit_ok {s t : State} {len : Nat} {loc : Loc} {out : HandlerOut} (h : commit s len loc out = .ok t) :
    (∃ target, out.target = some target ∧ t = (applyR0 ((s.setFlags out.flags).setPorts out.ports) out.r0).setPc target) ∨
    (out.target = none ∧ ∃ u, writeback (applyR0 ((s.setFlags out.flags).setPorts out.ports) out.r0) loc out.dst = .ok u ∧
      t = u.setPc (trunc16 (s.pc.toNat + len))) := by
  unfold commit at h
  cases ht : out.target with
  | some target => simp only [ht] at h; cases h; exact .inl ⟨target, rfl, rfl⟩
  | none =>
    simp only [ht] at h
    cases hw : writeback (applyR0 ((s.setFlags out.flags).setPorts out.ports) out.r0) loc out.dst with
    | error e => simp [hw, Except.map] at h
    | ok u => simp [hw, Except.map] at h; exact .inr ⟨rfl, u, rfl, h.symm⟩

/-- Everything `attempt` can do when it reaches a state. -/
theorem attempt_ok {s t : State} {dst : DstOperand} {src : SrcOperand} {h : Handler} (ha : attempt s dst src h = .ok t) :
    fitsAt s (ilen dst.mode src.mode) = true ∧ ∃ loc v out, resolveDst s dst = .ok loc ∧ resolveSrc s src = .ok v ∧
      h s v = .ok out ∧ commit s (ilen dst.mode src.mode) loc out = .ok t := by
  unfold attempt at ha
  simp only at ha
  split at ha
  · rename_i hf
    refine ⟨hf, ?_⟩
    cases h1 : resolveDst s dst with
    | error e => simp [h1, bind, Except.bind] at ha
    | ok loc =>
      cases h2 : resolveSrc s src with
      | error e => simp [h1, h2, bind, Except.bind] at ha
      | ok v =>
        cases h3 : h s v with
        | error e => simp [h1, h2, h3, bind, Except.bind] at ha
        | ok out =>
          simp only [h1, h2, h3, bind, Except.bind] at ha
          exact ⟨loc, v, out, rfl, rfl, h3, ha⟩
  · cases ha

/-- Everything `instruction` can do: the effect of the attempt, or its fault taken and nothing else. -/
theorem instruction_next {s t : State} {dst : DstOperand} {src : SrcOperand} {h : Handler}
    (hi : instruction dst src h s = .next t) :
    attempt s dst src h = .ok t ∨ ∃ k, attempt s dst src h = .error k ∧ t = s.raiseFault k := by
  simp only [instruction, settle] at hi
  injection hi with hi
  cases ha : attempt s dst src h with
  | ok u => left; simp only [ha] at hi; rw [hi]
  | error k => right; simp only [ha] at hi; exact ⟨k, rfl, hi.symm⟩

/-- Every meaning is `instruction` over the row's operands and the mnemonic's handler. -/
theorem exec_eq_instruction (i : Instr) (s : State) :
    exec i s = instruction i.form.dst i.form.src (handlerOf i.form.mnemonic) s := by
  cases i <;> rfl

/-- A meaning answers a next state, always. -/
theorem exec_next (i : Instr) (s : State) : ∃ t, exec i s = .next t := ⟨_, exec_eq_instruction i s⟩

end Sys2Proof.Machine
end

