-- ==== Sys2Proof/Laws/PerInstr.lean ====
section
/-! SUPPORT. Per-instruction families. `EncodingRow`: an instruction's bytes start with the opcode the table gives its mnemonic
and modes, and are as many as those modes say (30_encoding.md R50, R51, R62, R72). -/

namespace Sys2Proof.Laws.EncodingRow

open Sys2Proof

/-- The bytes of `i` are an opcode and operand bytes; the table's slot for that opcode holds the descriptor of `i`; the
assembler's lookup finds that opcode; and the number of bytes is `ILEN` of the modes. -/
def Statement (i : Instr) : Prop :=
  ∃ op bs, encode i = op :: bs ∧ defaultOpTab.lookup op = some i.descriptor ∧
    defaultOpTab.lookupByMnemonic i.descriptor.mnemonic i.descriptor.srcMode i.descriptor.dstMode = some op ∧
    (encode i).length = i.length

/-- The statement from its two computed parts; the assembler's lookup follows from the decoder's. -/
theorem of_parts {i : Instr} {op : Byte} {bs : List Byte} (he : encode i = op :: bs)
    (hl : defaultOpTab.lookup op = some i.descriptor) (hn : (encode i).length = i.length) : Statement i :=
  ⟨op, bs, he, hl, defaultOpTab_lookupByMnemonic hl, hn⟩

theorem hlt : Statement (.hlt) := of_parts rfl rfl rfl

theorem nop : Statement (.nop) := of_parts rfl rfl rfl

theorem stdout : Statement (.stdout) := of_parts rfl rfl rfl

theorem stdin : Statement (.stdin) := of_parts rfl rfl rfl

theorem intImm (v : Word) : Statement (.intImm v) := of_parts rfl rfl rfl

theorem intReg (s : Byte) : Statement (.intReg s) := of_parts rfl rfl rfl

theorem cmpImm (v : Word) : Statement (.cmpImm v) := of_parts rfl rfl rfl

theorem cmpReg (s : Byte) : Statement (.cmpReg s) := of_parts rfl rfl rfl

theorem movRegImm (d : Byte) (v : Word) : Statement (.movRegImm d v) := of_parts rfl rfl rfl

theorem movRegReg (d s : Byte) : Statement (.movRegReg d s) := of_parts rfl rfl rfl

theorem movRegMem (d : Byte) (a : Word) : Statement (.movRegMem d a) := of_parts rfl rfl rfl

theorem movRegPtr (d : Byte) (p : Word) : Statement (.movRegPtr d p) := of_parts rfl rfl rfl

theorem movMemReg (a : Word) (s : Byte) : Statement (.movMemReg a s) := of_parts rfl rfl rfl

theorem movPtrReg (p : Word) (s : Byte) : Statement (.movPtrReg p s) := of_parts rfl rfl rfl

theorem inc (d s : Byte) : Statement (.inc d s) := of_parts rfl rfl rfl

theorem dec (d s : Byte) : Statement (.dec d s) := of_parts rfl rfl rfl

theorem add (d s : Byte) : Statement (.add d s) := of_parts rfl rfl rfl

theorem sub (d s : Byte) : Statement (.sub d s) := of_parts rfl rfl rfl

theorem mul (d s : Byte) : Statement (.mul d s) := of_parts rfl rfl rfl

theorem div (d s : Byte) : Statement (.div d s) := of_parts rfl rfl rfl

theorem shl (d s : Byte) : Statement (.shl d s) := of_parts rfl rfl rfl

theorem shr (d s : Byte) : Statement (.shr d s) := of_parts rfl rfl rfl

theorem jmpImm (v : Word) : Statement (.jmpImm v) := of_parts rfl rfl rfl

theorem jmpReg (s : Byte) : Statement (.jmpReg s) := of_parts rfl rfl rfl

theorem jeImm (v : Word) : Statement (.jeImm v) := of_parts rfl rfl rfl

theorem jeReg (s : Byte) : Statement (.jeReg s) := of_parts rfl rfl rfl

theorem jneImm (v : Word) : Statement (.jneImm v) := of_parts rfl rfl rfl

theorem jneReg (s : Byte) : Statement (.jneReg s) := of_parts rfl rfl rfl

theorem jzImm (v : Word) : Statement (.jzImm v) := of_parts rfl rfl rfl

theorem jzReg (s : Byte) : Statement (.jzReg s) := of_parts rfl rfl rfl

theorem jnzImm (v : Word) : Statement (.jnzImm v) := of_parts rfl rfl rfl

theorem jnzReg (s : Byte) : Statement (.jnzReg s) := of_parts rfl rfl rfl

theorem jlImm (v : Word) : Statement (.jlImm v) := of_parts rfl rfl rfl

theorem jlReg (s : Byte) : Statement (.jlReg s) := of_parts rfl rfl rfl

theorem jleImm (v : Word) : Statement (.jleImm v) := of_parts rfl rfl rfl

theorem jleReg (s : Byte) : Statement (.jleReg s) := of_parts rfl rfl rfl

theorem jgImm (v : Word) : Statement (.jgImm v) := of_parts rfl rfl rfl

theorem jgReg (s : Byte) : Statement (.jgReg s) := of_parts rfl rfl rfl

theorem jgeImm (v : Word) : Statement (.jgeImm v) := of_parts rfl rfl rfl

theorem jgeReg (s : Byte) : Statement (.jgeReg s) := of_parts rfl rfl rfl

end Sys2Proof.Laws.EncodingRow
end

