-- ==== Sys2Proof/Laws/Words.lean ====
section
/-! SUPPORT. The two bytes of a word as numbers, and that taking a word apart and putting it together are inverse
(20_memory.md R31 to R33). -/

namespace Sys2Proof

theorem beWord_toNat (h l : Byte) : (beWord h l).toNat = 256 * h.toNat + l.toNat := by
  unfold beWord
  rw [BitVec.toNat_append, Nat.shiftLeft_eq, Nat.mul_comm, ← Nat.two_pow_add_eq_or_of_lt (i := 8) l.isLt]

theorem hiByte_toNat (v : Word) : (hiByte v).toNat = v.toNat / 256 := by
  simp [hiByte, BitVec.extractLsb'_toNat, Nat.shiftRight_eq_div_pow]
  omega

theorem loByte_toNat (v : Word) : (loByte v).toNat = v.toNat % 256 := by
  simp [loByte, BitVec.extractLsb'_toNat]

@[simp] theorem beWord_hiByte_loByte (v : Word) : beWord (hiByte v) (loByte v) = v := by
  apply BitVec.eq_of_toNat_eq
  rw [beWord_toNat, hiByte_toNat, loByte_toNat]
  omega

@[simp] theorem hiByte_beWord (h l : Byte) : hiByte (beWord h l) = h := by
  apply BitVec.eq_of_toNat_eq
  rw [hiByte_toNat, beWord_toNat]
  omega

@[simp] theorem loByte_beWord (h l : Byte) : loByte (beWord h l) = l := by
  apply BitVec.eq_of_toNat_eq
  rw [loByte_toNat, beWord_toNat]
  omega

end Sys2Proof
end

