-- ==== Sys2Proof/Laws/Step.lean ====
section
/-! SUPPORT. What a handler, a commit, an instruction and a step can do, each said once. -/

namespace Sys2Proof.Machine

open Sys2Proof

/-! ## Numbers, bytes and operands -/

/-- The truncation of a number that is not negative. -/
theorem trunc16_toNat (n : Nat) : (trunc16 (n : Int)).toNat = n % 65536 := by
  simp [trunc16]

/-- The truncation of any integer. -/
theorem trunc16_toInt (n : Int) : ((trunc16 n).toNat : Int) = n % 65536 := by
  simp [trunc16, BitVec.toNat_ofInt]
  omega

/-- The program counter is an address. -/
theorem State.pc_le (s : State) : s.pc.toNat ≤ 0xFFFF := by
  have := s.pc.isLt
  omega

theorem indexByte_toNat (i : Fin 10) : (indexByte i).toNat = i.val := by
  have := i.isLt
  simp [indexByte]
  omega

/-- A good index byte names its register. -/
theorem regIndex_indexByte (i : Fin 10) : regIndex (indexByte i) = .ok i := by
  have h := indexByte_toNat i
  rw [regIndex_of_le (by have := i.isLt; omega)]
  congr 1
  exact Fin.ext (by simp [h])

/-- The 16-bit number at an address is what a read there gives. -/
theorem State.wordAt_eq (s : State) (a : Nat) : s.wordAt a = (beWord (s.mem.read a) (s.mem.read (a + 1))).toNat := by
  rw [beWord_toNat]
  rfl

/-- A 16-bit read in range, and its number. -/
theorem memRead2_in_range (s : State) {a : Nat} (h : a + 1 ≤ 0xFFFF) : ∃ v, memRead2 s a = .ok v ∧ v.toNat = s.wordAt a := by
  rcases memRead2_cases s a with ⟨-, hr⟩ | ⟨hr, -⟩
  · exact ⟨_, hr, (s.wordAt_eq a).symm⟩
  · omega

theorem Memory.readBytes_length (m : Memory) (a n : Nat) : (m.readBytes a n).length = n := by
  induction n generalizing a with
  | zero => rfl
  | succ n ih => simp [Memory.readBytes, ih]

/-! ## Handlers -/

/-- Only `div` by zero faults in its handler (60_exceptions.md R192 row 7). -/
theorem handlerOf_error {m : Mnemonic} {s : State} {v : Word} {k : FaultKind} (h : handlerOf m s v = .error k) :
    m = .div ∧ v = 0x0000 ∧ k = .divideByZero := by
  cases m <;> simp [handlerOf, hltHandler, nopHandler, stdoutHandler, stdinHandler, cmpHandler, movHandler, incHandler,
    decHandler, addHandler, subHandler, mulHandler, shlHandler, shrHandler, jumpHandler] at h
  · unfold intHandler at h
    split at h <;> cases h
  · unfold divHandler at h
    split at h
    · rename_i hv
      injection h with h
      exact ⟨rfl, hv, h.symm⟩
    · cases h

/-! ## Commit -/

@[simp] theorem applyR0_pc (s : State) (o : Option Word) : (applyR0 s o).pc = s.pc := by cases o <;> rfl
@[simp] theorem applyR0_flags (s : State) (o : Option Word) : (applyR0 s o).flags = s.flags := by cases o <;> rfl
@[simp] theorem applyR0_fault (s : State) (o : Option Word) : (applyR0 s o).fault = s.fault := by cases o <;> rfl
@[simp] theorem applyR0_mem (s : State) (o : Option Word) : (applyR0 s o).mem = s.mem := by cases o <;> rfl
@[simp] theorem applyR0_ports (s : State) (o : Option Word) : (applyR0 s o).ports = s.ports := by cases o <;> rfl

/-- A commit leaves FAULT and writes the flags and the record of the collaborators that the handler left. -/
theorem commit_fields {s t : State} {len : Nat} {loc : Loc} {out : HandlerOut} (h : commit s len loc out = .ok t) :
    t.fault = s.fault ∧ t.flags = out.flags ∧ t.ports = out.ports := by
  rcases commit_ok h with ⟨target, -, rfl⟩ | ⟨-, u, hu, rfl⟩
  · simp
  · rcases writeback_ok hu with ⟨i, -, rfl⟩ | ⟨a, -, -, rfl⟩ <;> simp

/-- A commit cannot fault at a location in memory below 0xFFFF (40_execution_cycle.md R87). -/
theorem commit_ne_error {s : State} {len : Nat} {loc : Loc} {out : HandlerOut} {k : FaultKind}
    (hl : ∀ a, loc = .mem a → a.toNat + 1 ≤ 0xFFFF) : commit s len loc out ≠ .error k := by
  intro h
  unfold commit at h
  cases ht : out.target with
  | some target => simp [ht] at h
  | none =>
    simp only [ht] at h
    cases loc with
    | reg i => simp [writeback, Except.map] at h
    | mem a =>
      have := hl a rfl
      simp [writeback, memWrite2, show ¬ a.toNat + 1 > 0xFFFF by omega, Except.map] at h

/-! ## An instruction -/

/-- Everything an instruction can do: take a fault with nothing else changed, or pass every check and commit. -/
theorem exec_cases {i : Instr} {s t : State} (h : exec i s = .next t) :
    (∃ k, t = s.raiseFault k ∧ attempt s i.form.dst i.form.src (handlerOf i.form.mnemonic) = .error k) ∨
    ∃ loc v out, resolveDst s i.form.dst = .ok loc ∧ resolveSrc s i.form.src = .ok v ∧
      handlerOf i.form.mnemonic s v = .ok out ∧ commit s i.length loc out = .ok t := by
  rw [exec_eq_instruction] at h
  rcases instruction_next h with h | ⟨k, h1, h2⟩
  · obtain ⟨-, loc, v, out, a, b, c, d⟩ := attempt_ok h
    exact .inr ⟨loc, v, out, a, b, c, d⟩
  · exact .inl ⟨k, h2, h1⟩

/-- An instruction that passes its four checks answers the state its commit reaches. -/
theorem exec_of_parts {i : Instr} {s t : State} {loc : Loc} {v : Word} {out : HandlerOut} (hf : fitsAt s i.length = true)
    (hd : resolveDst s i.form.dst = .ok loc) (hs : resolveSrc s i.form.src = .ok v)
    (hh : handlerOf i.form.mnemonic s v = .ok out) (hc : commit s i.length loc out = .ok t) : exec i s = .next t := by
  simp only [Instr.length] at hf hc
  simp [exec_eq_instruction, instruction, attempt, hf, settle, hd, hs, hh, hc, bind, Except.bind]

/-- An instruction whose bytes do not fit takes the AddressRange fault. -/
theorem exec_of_not_fits {i : Instr} {s : State} (hf : fitsAt s i.length = false) :
    exec i s = .next (s.raiseFault .addressRange) := by
  simp only [Instr.length] at hf
  simp [exec_eq_instruction, instruction, attempt, hf, settle]

/-- An instruction whose destination operand faults takes that fault. -/
theorem exec_of_dst_error {i : Instr} {s : State} {k : FaultKind} (hf : fitsAt s i.length = true)
    (hd : resolveDst s i.form.dst = .error k) : exec i s = .next (s.raiseFault k) := by
  simp only [Instr.length] at hf
  simp [exec_eq_instruction, instruction, attempt, hf, settle, hd, bind, Except.bind]

/-- An instruction whose source operand faults takes that fault, once its destination has passed. -/
theorem exec_of_src_error {i : Instr} {s : State} {k : FaultKind} {loc : Loc} (hf : fitsAt s i.length = true)
    (hd : resolveDst s i.form.dst = .ok loc) (hs : resolveSrc s i.form.src = .error k) :
    exec i s = .next (s.raiseFault k) := by
  simp only [Instr.length] at hf
  simp [exec_eq_instruction, instruction, attempt, hf, settle, hd, hs, bind, Except.bind]

/-! ## A step -/

/-- A step of a Halted core answers the same state. -/
theorem step_halted {s : State} (h : s.flags.halt = true) : step s = .next s := by
  simp only [step, h, if_true]

/-- Everything a step of a Running core can do: take the fault of its fetch, or run the fetched instruction. -/
theorem step_running {s t : State} (hr : s.running) (h : step s = .next t) :
    (∃ k, fetch s = .error k ∧ t = s.raiseFault k) ∨ ∃ i, fetch s = .ok i ∧ exec i s = .next t := by
  simp only [step, show s.flags.halt = false from hr] at h
  cases hf : fetch s with
  | error k => simp [hf] at h; exact .inl ⟨k, rfl, h.symm⟩
  | ok i => simp [hf] at h; exact .inr ⟨i, rfl, h⟩

/-- A step always answers a next state. -/
theorem step_next (s : State) : ∃ t, step s = .next t := by
  unfold step
  split
  · exact ⟨_, rfl⟩
  · split
    · exact ⟨_, rfl⟩
    · exact exec_next _ s

end Sys2Proof.Machine
end

