-- ==== Sys2Proof/Tests/Slice0.lean ====
section
/-! SUPPORT. Tests of the model's own: what well-formedness and the table builder refuse, a written-out word for every
constructor, one step of every instruction, and for every statement with hypotheses a state and operands that meet them. The
names E, S, I, C, M, A, J and F with a number are vectors of 95_test_vectors.md, the source of the expected results. -/

namespace Sys2Proof.Tests

open Sys2Proof Sys2Proof.Machine

/-! ## Helpers -/

/-- Flags with exactly these true. -/
def flagsOf (on : List FlagName) : Flags :=
  ⟨on.contains .halt, on.contains .greater, on.contains .less, on.contains .equal, on.contains .zero, on.contains .data,
    on.contains .overflow, on.contains .underflow⟩

/-- Registers set one after the other. -/
def withRegs (s : State) (regs : List (Fin 10 × Word)) : State := regs.foldl (fun s r => s.setReg r.1 r.2) s

/-- More bytes in memory. -/
def withBytes (s : State) (a : Nat) (bytes : List Byte) : State := s.setMem (s.mem.writeBytes a bytes)

/-- Reset with a program's bytes at `pc`, registers and flags set. -/
def start (pc : Word) (bytes : List Byte) (regs : List (Fin 10 × Word)) (on : List FlagName) : State :=
  withBytes (withRegs ((State.reset.setPc pc).setFlags (flagsOf on)) regs) pc.toNat bytes

/-- The state with answers the environment has fixed. -/
def withAnswers (s : State) (inputs : List (Option Byte)) (answers : List (Option Word)) : State :=
  s.setPorts { s.ports with inputs := inputs, answers := answers }

/-- The state after one step. -/
def after (s : State) : Option State :=
  match step s with
  | .next t => some t
  | .fault _ => none
  | .refused _ => none

/-- One step leads to this PC, these changed registers and exactly these flags, and changes nothing else. -/
abbrev Steps (s : State) (pc : Word) (regs : List (Fin 10 × Word)) (on : List FlagName) : Prop :=
  after s = some (((withRegs s regs).setPc pc).setFlags (flagsOf on))

/-- One step also stores these bytes. -/
abbrev Stores (s : State) (pc : Word) (a : Nat) (bytes : List Byte) : Prop :=
  after s = some ((withBytes s a bytes).setPc pc)

/-- One step takes this fault and changes nothing else. -/
abbrev Faults (s : State) (k : FaultKind) : Prop := after s = some (s.raiseFault k)

/-- What one step left in the trace and in `R[0]`. -/
def heard (s : State) : Option (List Event × Word × Word) := (after s).map (fun t => (t.ports.trace, t.reg 0, t.pc))

/-! ## What is refused -/

theorem test_wellFormed_refuses_destination_index : Instr.wellFormed (.movRegImm 0x0A 0x1234) = false := by decide

theorem test_wellFormed_refuses_source_index : Instr.wellFormed (.intReg 0x0A) = false := by decide

theorem test_wellFormed_accepts_index_nine : Instr.wellFormed (.add 0x09 0x09) = true := by decide

theorem test_build_refuses_immediate_destination : OpTab.build [(0x10, ⟨.mov, .register, .immediate⟩)] = none := by decide

theorem test_build_refuses_repeated_opcode :
    OpTab.build [(0x00, ⟨.hlt, .none, .none⟩), (0x00, ⟨.nop, .none, .none⟩)] = none := by decide

theorem test_build_accepts_unused_formats :
    OpTab.build [(0x30, ⟨.add, .memory, .memory⟩), (0x31, ⟨.cmp, .immediate, .memoryPointer⟩)] =
      some [(0x30, ⟨.add, .memory, .memory⟩), (0x31, ⟨.cmp, .immediate, .memoryPointer⟩)] := by decide

theorem test_decode_refuses_unregistered : decode [0x06, 0x00] = .error (.unregisteredOpcode 0x06) := rfl

theorem test_decode_refuses_truncated : decode [0x10, 0x01, 0x12] = .error (.truncated 0x10) := rfl

theorem test_decode_refuses_nothing : decode [] = .error .noBytes := rfl

/-! ## A word for every constructor, written from 30_encoding.md R56 and R62 -/

theorem test_decode_system :
    decode [0x00] = .ok (.hlt, []) ∧ decode [0x01] = .ok (.nop, []) ∧ decode [0x02] = .ok (.stdout, []) ∧
    decode [0x03] = .ok (.stdin, []) := ⟨rfl, rfl, rfl, rfl⟩

theorem test_decode_int_cmp :
    decode [0x04, 0x01, 0x02] = .ok (.intImm 0x0102, []) ∧ decode [0x05, 0x04] = .ok (.intReg 4, []) ∧
    decode [0x07, 0x7F, 0xFF] = .ok (.cmpImm 0x7FFF, []) ∧ decode [0x08, 0x0C] = .ok (.cmpReg 12, []) :=
  ⟨rfl, rfl, rfl, rfl⟩

theorem test_decode_mov :
    decode [0x10, 0x09, 0xFF, 0xFE] = .ok (.movRegImm 9 0xFFFE, []) ∧
    decode [0x11, 0x07, 0x02] = .ok (.movRegReg 7 2, []) ∧
    decode [0x12, 0x03, 0x20, 0x01] = .ok (.movRegMem 3 0x2001, []) ∧
    decode [0x13, 0x04, 0x30, 0x00] = .ok (.movRegPtr 4 0x3000, []) ∧
    decode [0x14, 0x20, 0x01, 0x05] = .ok (.movMemReg 0x2001 5, []) ∧
    decode [0x15, 0x30, 0x00, 0x02] = .ok (.movPtrReg 0x3000 2, []) := ⟨rfl, rfl, rfl, rfl, rfl, rfl⟩

theorem test_decode_arithmetic :
    decode [0x20, 0x01, 0x02] = .ok (.inc 1 2, []) ∧ decode [0x21, 0x03, 0x02] = .ok (.dec 3 2, []) ∧
    decode [0x22, 0x05, 0x06] = .ok (.add 5 6, []) ∧ decode [0x23, 0x00, 0x03] = .ok (.sub 0 3, []) ∧
    decode [0x24, 0x02, 0x01] = .ok (.mul 2 1, []) ∧ decode [0x25, 0x02, 0x00] = .ok (.div 2 0, []) ∧
    decode [0x26, 0x01, 0x02] = .ok (.shl 1 2, []) ∧ decode [0x27, 0x05, 0x04] = .ok (.shr 5 4, []) :=
  ⟨rfl, rfl, rfl, rfl, rfl, rfl, rfl, rfl⟩

theorem test_decode_jump_immediate :
    decode [0xE0, 0x02, 0x01] = .ok (.jmpImm 0x0201, []) ∧ decode [0xE2, 0x02, 0x01] = .ok (.jeImm 0x0201, []) ∧
    decode [0xE4, 0x02, 0x01] = .ok (.jneImm 0x0201, []) ∧ decode [0xE6, 0x02, 0x01] = .ok (.jzImm 0x0201, []) ∧
    decode [0xE8, 0x02, 0x01] = .ok (.jnzImm 0x0201, []) ∧ decode [0xEA, 0x02, 0x01] = .ok (.jlImm 0x0201, []) ∧
    decode [0xEC, 0x02, 0x01] = .ok (.jleImm 0x0201, []) ∧ decode [0xEE, 0x02, 0x01] = .ok (.jgImm 0x0201, []) ∧
    decode [0xF0, 0x02, 0x01] = .ok (.jgeImm 0x0201, []) := ⟨rfl, rfl, rfl, rfl, rfl, rfl, rfl, rfl, rfl⟩

theorem test_decode_jump_register :
    decode [0xE1, 0x03] = .ok (.jmpReg 3, []) ∧ decode [0xE3, 0x0A] = .ok (.jeReg 10, []) ∧
    decode [0xE5, 0x03] = .ok (.jneReg 3, []) ∧ decode [0xE7, 0x03] = .ok (.jzReg 3, []) ∧
    decode [0xE9, 0x03] = .ok (.jnzReg 3, []) ∧ decode [0xEB, 0x03] = .ok (.jlReg 3, []) ∧
    decode [0xED, 0x03] = .ok (.jleReg 3, []) ∧ decode [0xEF, 0x03] = .ok (.jgReg 3, []) ∧
    decode [0xF1, 0x03] = .ok (.jgeReg 3, []) := ⟨rfl, rfl, rfl, rfl, rfl, rfl, rfl, rfl, rfl⟩

/-- `add r1, r2` is 0x22 0x01 0x02 (R73); in the table's numbering byte 0 is bits 7 to 0. -/
theorem test_decodeTableWord : decodeTableWord 24 0x020122 = some (.add 1 2) := by decide

/-- Bits above `nbits` count as zero. -/
theorem test_decodeTableWord_cuts : decodeTableWord 8 0x341210 = some (.movRegImm 0 0) := by decide

/-- The placed instruction is the one the next step runs. -/
theorem test_withFetchWord :
    step (State.reset.withFetchWord 24 0x020122) = exec (.add 1 2) (State.reset.withFetchWord 24 0x020122) := rfl

/-! ## One step of every instruction -/

theorem test_hlt_S2 : Steps (start 0xFFFF [0x00] [] []) 0x0000 [] [.halt] := by decide

theorem test_nop_S3 : Steps (start 0x0100 [0x01] [(0, 0x1234)] [.equal, .overflow]) 0x0101 [] [.equal, .overflow] := by decide

theorem test_stdout_S7 : heard (start 0x0100 [0x02] [(0, 0xFF80)] []) = some ([.out 0x80], 0xFF80, 0x0101) := by decide

theorem test_stdin_S11 :
    heard (withAnswers (start 0x0100 [0x03] [] [.greater]) [some 0xFF, none] []) =
      some ([.inp (some 0xFF)], 0x00FF, 0x0101) := by decide

theorem test_stdin_S9 :
    (after (withAnswers (start 0x0100 [0x03] [(0, 0x1234)] [.data]) [none] [])).map (fun t => (t.reg 0, t.flags)) =
      some (0x0000, flagsOf [.zero]) := by decide

theorem test_int_immediate_I10 :
    heard (withAnswers (start 0xFFFD [0x04, 0x00, 0x03] [] []) [] [some 0x0001]) =
      some ([.call .gpioGet (Vector.replicate 10 0) (some 0x0001)], 0x0001, 0x0000) := by decide

theorem test_int_immediate_I3 : Steps (start 0x0100 [0x04, 0x01, 0x00] [(0, 5)] []) 0x0103 [] [] := by decide

theorem test_int_register_I6 :
    heard (withAnswers (start 0x0100 [0x05, 0x00] [(0, 5), (1, 3), (2, 4)] []) [] [some 0x00FF]) =
      some ([.call .videoGetpixel #v[5, 3, 4, 0, 0, 0, 0, 0, 0, 0] (some 0x00FF)], 0x00FF, 0x0102) := by decide

theorem test_int_register_I11 : Faults (withAnswers (start 0x0100 [0x05, 0x0A] [] []) [] [some 1]) .registerIndex := by decide

theorem test_cmp_immediate_C6 : Steps (start 0x0100 [0x07, 0x7F, 0xFF] [(0, 0x8000)] []) 0x0103 [] [.greater] := by decide

theorem test_cmp_immediate_C3 : Steps (start 0x0100 [0x07, 0x00, 0x05] [] []) 0x0103 [] [.less, .zero] := by decide

theorem test_cmp_register_C10 :
    Steps (start 0x0100 [0x08, 0x03] [(0, 2), (3, 2)] [.data, .overflow, .underflow]) 0x0102 []
      [.equal, .data, .overflow, .underflow] := by decide

theorem test_cmp_register_E4b :
    Steps (start 0x0100 [0x08, 0x05] [(0, 0x10), (5, 0x20)] [.greater, .equal, .zero]) 0x0102 [] [.less] := by decide

theorem test_mov_immediate_M26 : Steps (start 0xFFFC [0x10, 0x01, 0x12, 0x34] [] []) 0x0000 [(1, 0x1234)] [] := by decide

theorem test_mov_immediate_M25 : Faults (start 0xFFFD [0x10, 0x01, 0x12] [] []) .addressRange := by decide

theorem test_mov_register_M3 : Steps (start 0x0100 [0x11, 0x07, 0x02] [(2, 0xBEEF)] []) 0x0103 [(7, 0xBEEF)] [] := by decide

theorem test_mov_register_M24 : Faults (start 0x0100 [0x11, 0x01, 0xFF] [] []) .registerIndex := by decide

theorem test_mov_load_M6 :
    Steps (withBytes (start 0x0100 [0x12, 0x03, 0x20, 0x01] [] []) 0x2000 [0xAB, 0xCD, 0xEF]) 0x0104 [(3, 0xCDEF)] [] := by
  decide

theorem test_mov_load_F10 : Faults (start 0x0100 [0x12, 0x0A, 0xFF, 0xFF] [] []) .registerIndex := by decide

theorem test_mov_pointer_load_M10 :
    Steps (withBytes (withBytes (start 0x0100 [0x13, 0x04, 0x30, 0x00] [] []) 0x2000 [0xAB, 0xCD]) 0x3000 [0x20, 0x00])
      0x0104 [(4, 0xABCD)] [] := by decide

theorem test_mov_pointer_load_M12 :
    Faults (withBytes (start 0x0100 [0x13, 0x04, 0x30, 0x00] [] []) 0x3000 [0xFF, 0xFF]) .addressRange := by decide

theorem test_mov_store_M15 :
    Stores (withBytes (start 0x0100 [0x14, 0x20, 0x01, 0x01] [(1, 0x1234)] []) 0x2000 [0xAA, 0xBB, 0xCC, 0xDD])
      0x0104 0x2000 [0xAA, 0x12, 0x34, 0xDD] := by decide

theorem test_mov_store_M18 :
    Stores (start 0x0100 [0x14, 0x01, 0x02, 0x01] [(1, 0xAABB)] []) 0x0104 0x0100 [0x14, 0x01, 0xAA, 0xBB] := by decide

theorem test_mov_pointer_store_M20 :
    Stores (withBytes (start 0x0100 [0x15, 0x30, 0x00, 0x02] [(2, 0xCAFE)] []) 0x3000 [0x30, 0x00])
      0x0104 0x3000 [0xCA, 0xFE] := by decide

theorem test_mov_pointer_store_M22 : Faults (start 0x0100 [0x15, 0xFF, 0xFF, 0x02] [(2, 0xCAFE)] []) .addressRange := by decide

theorem test_inc_A2 :
    Steps (start 0x0100 [0x20, 0x01, 0x02] [(1, 0x5555), (2, 0xFFFF)] []) 0x0103 [(1, 0x0000)] [.overflow] := by decide

theorem test_inc_A3 : Steps (start 0x0100 [0x20, 0x01, 0x01] [(1, 5)] [.overflow]) 0x0103 [(1, 6)] [] := by decide

theorem test_dec_A6 : Steps (start 0x0100 [0x21, 0x02, 0x02] [] []) 0x0103 [(2, 0xFFFF)] [.underflow] := by decide

theorem test_dec_A7 :
    Steps (start 0x0100 [0x21, 0x03, 0x02] [(2, 0x8000)] [.overflow, .underflow]) 0x0103 [(3, 0x7FFF)] [.overflow] := by decide

theorem test_add_A8 :
    Steps (start 0x0100 [0x22, 0x01, 0x02] [(0, 3), (1, 0x7777), (2, 4)] []) 0x0103 [(1, 7)] [] := by decide

theorem test_add_E2 :
    Steps (start 0x0100 [0x22, 0x02, 0x01] [(0, 0xFFFF), (1, 1), (2, 0x5555)] []) 0x0103 [(2, 0)] [.overflow] := by decide

theorem test_sub_A14 :
    Steps (start 0x0100 [0x23, 0x01, 0x02] [(2, 0xFFFF)] []) 0x0103 [(1, 0x0001)] [.underflow] := by decide

theorem test_sub_A13 :
    Steps (start 0x0100 [0x23, 0x01, 0x02] [(0, 5), (1, 0x7777), (2, 5)] [.underflow]) 0x0103 [(1, 0)] [] := by decide

theorem test_mul_E1 :
    Steps (start 0x0100 [0x24, 0x03, 0x01] [(0, 0x1234), (1, 0x0100)] []) 0x0103 [(3, 0x3400)] [.overflow] := by decide

theorem test_mul_A20 :
    Steps (start 0x0100 [0x24, 0x02, 0x01] [(0, 0x00FF), (1, 0x0101)] [.overflow]) 0x0103 [(2, 0xFFFF)] [] := by decide

theorem test_div_A22 :
    Steps (start 0x0100 [0x25, 0x02, 0x01] [(0, 0x64), (1, 7)] [.overflow, .underflow]) 0x0103 [(2, 0x0E)]
      [.overflow, .underflow] := by decide

theorem test_div_A28 :
    Faults (start 0x0100 [0x25, 0x02, 0x01] [(0, 0x64), (2, 0x7777)] [.equal]) .divideByZero := by decide

theorem test_shl_A32 : Steps (start 0x0100 [0x26, 0x01, 0x02] [(2, 0xFFFF)] []) 0x0103 [(1, 0xFFFE)] [] := by decide

theorem test_shr_A34 : Steps (start 0x0100 [0x27, 0x05, 0x04] [(4, 0x8000)] []) 0x0103 [(5, 0x4000)] [] := by decide

theorem test_jmp_immediate_J26 : Steps (start 0xFFFD [0xE0, 0x02, 0x00] [] []) 0x0200 [] [] := by decide

theorem test_jmp_register_J2 :
    Steps (start 0x0100 [0xE1, 0x03] [(3, 0x0200)] [.greater, .less, .equal, .zero]) 0x0200 []
      [.greater, .less, .equal, .zero] := by decide

theorem test_je_immediate_J27 : Steps (start 0xFFFD [0xE2, 0x02, 0x00] [] []) 0x0000 [] [] := by decide

theorem test_je_immediate_J5 : Steps (start 0x0100 [0xE2, 0x02, 0x00] [] [.equal]) 0x0200 [] [.equal] := by decide

theorem test_je_register_J24 : Faults (start 0x0100 [0xE3, 0x0A] [] []) .registerIndex := by decide

theorem test_je_register_J7 : Steps (start 0x0100 [0xE3, 0x03] [(3, 0x0200)] [.equal]) 0x0200 [] [.equal] := by decide

theorem test_jne_immediate_J8 : Steps (start 0x0100 [0xE4, 0x02, 0x00] [] []) 0x0200 [] [] := by decide

theorem test_jne_register_J9 : Steps (start 0x0100 [0xE5, 0x03] [(3, 0x0200)] [.equal]) 0x0102 [] [.equal] := by decide

theorem test_jz_immediate_J11 : Steps (start 0x0100 [0xE6, 0x02, 0x00] [] [.equal]) 0x0103 [] [.equal] := by decide

/-- The example of 46_jumps.md R168. -/
theorem test_jz_register : Steps (start 0x0040 [0xE7, 0x03] [(3, 0x0200)] [.zero]) 0x0200 [] [.zero] := by decide

theorem test_jnz_immediate_J13 : Steps (start 0x0100 [0xE8, 0x02, 0x00] [] [.zero]) 0x0103 [] [.zero] := by decide

theorem test_jnz_register_J12 : Steps (start 0x0100 [0xE9, 0x03] [(3, 0x0200)] []) 0x0200 [] [] := by decide

theorem test_jl_immediate_J14 : Steps (start 0x0100 [0xEA, 0x02, 0x00] [] [.less]) 0x0200 [] [.less] := by decide

theorem test_jl_register_J15 :
    Steps (start 0x0100 [0xEB, 0x03] [(3, 0x0200)] [.greater, .equal]) 0x0102 [] [.greater, .equal] := by decide

theorem test_jle_immediate_J16 : Steps (start 0x0100 [0xEC, 0x02, 0x00] [] [.equal]) 0x0200 [] [.equal] := by decide

theorem test_jle_immediate_J17 : Steps (start 0x0100 [0xEC, 0x02, 0x00] [] [.greater]) 0x0103 [] [.greater] := by decide

theorem test_jle_register_J18 :
    Steps (start 0x0100 [0xED, 0x03] [(3, 0x0200)] [.greater, .less]) 0x0200 [] [.greater, .less] := by decide

theorem test_jg_immediate_J19 : Steps (start 0x0100 [0xEE, 0x02, 0x00] [] [.greater]) 0x0200 [] [.greater] := by decide

theorem test_jg_register_J20 : Steps (start 0x0100 [0xEF, 0x03] [(3, 0x0200)] [.equal]) 0x0102 [] [.equal] := by decide

theorem test_jge_immediate_J21 : Steps (start 0x0100 [0xF0, 0x02, 0x00] [] [.equal]) 0x0200 [] [.equal] := by decide

theorem test_jge_immediate_J23 : Steps (start 0x0100 [0xF0, 0x02, 0x00] [] []) 0x0103 [] [] := by decide

theorem test_jge_register_J22 :
    Steps (start 0x0100 [0xF1, 0x03] [(3, 0x0200)] [.less, .zero]) 0x0102 [] [.less, .zero] := by decide

theorem test_unregistered_F1 : Faults (start 0x0100 [0x06] [(0, 1)] [.equal]) .unregisteredOpcode := by decide

theorem test_unregistered_F8 : Faults (start 0xFFFF [0xFF] [] []) .unregisteredOpcode := by decide

theorem test_fault_order_F9 : Faults (start 0x0100 [0x14, 0xFF, 0xFF, 0x0A] [] []) .addressRange := by decide

/-- The bits of R23: HALT is bit 0, UNDERFLOW bit 7. -/
theorem test_flags_pack : Flags.pack (flagsOf [.halt, .less, .underflow]) = 0x85 := by decide

/-! ## States and operands that meet the hypotheses of the statements -/

/-- Reset with another PC. -/
def atPc (pc : Word) : State := start pc [] [] []

theorem witness_DecodedBytesAreTheEncoding : decode [0xEF, 0x0A, 0x07] = .ok (.jgReg 0x0A, [0x07]) := rfl

theorem witness_LengthFollowsFromModes : encode (.movPtrReg 0x3000 2) = 0x15 :: [0x30, 0x00, 0x02] := rfl

theorem witness_TableBuildRefusesBadRows :
    OpTab.build [(0xFF, ⟨.stdout, .memory, .none⟩)] = some [(0xFF, ⟨.stdout, .memory, .none⟩)] ∧
    (0xFF, ⟨.stdout, .memory, .none⟩) ∈ [((0xFF : Byte), (⟨.stdout, .memory, .none⟩ : RawDescriptor))] ∧
    (0xFE : Byte) ∉ [((0xFF : Byte), (⟨.stdout, .memory, .none⟩ : RawDescriptor))].map (·.1) := by decide

theorem witness_UnregisteredOpcodesFault :
    ∀ op ∈ [(0x06 : Byte), 0x09, 0x0F, 0x16, 0x1F, 0x28, 0xDF, 0xF2, 0xFF],
      (start 0xFFFF [op] [] []).running ∧
        defaultOpTab.lookup ((start 0xFFFF [op] [] []).byteAt (start 0xFFFF [op] [] []).pc.toNat) = none := by decide

/-- Vector M7: the highest legal addresses and the ones above them. -/
theorem witness_ReadsAreBigEndianAndRanged :
    memRead1 (start 0xFFFE [0x12, 0x34] [] []) 0xFFFF = .ok 0x34 ∧
    memRead1 (start 0xFFFE [0x12, 0x34] [] []) 0x10000 = .error .addressRange ∧
    memRead2 (start 0xFFFE [0x12, 0x34] [] []) 0xFFFE = .ok 0x1234 ∧
    memRead2 (start 0xFFFE [0x12, 0x34] [] []) 0xFFFF = .error .addressRange := ⟨rfl, rfl, rfl, rfl⟩

theorem witness_StoreWritesTwoBytesHighFirst :
    (atPc 0).mem.wf ∧ 0xFFFE + 1 ≤ 0xFFFF ∧ 0xFFFF < 0xFFFF + 1 := by decide

theorem witness_LoadAfterStoreSeesItsBytes :
    (atPc 0).mem.wf ∧ (∃ t, memWrite2 (atPc 0) 0xFFFD 0x1234 = .ok t) ∧ 0xFFFD + 2 ≤ 0xFFFF ∧
    ∃ t, memWrite2 (atPc 0) 0xFFFE 0x1234 = .ok t := ⟨Memory.wf_nil, ⟨_, rfl⟩, by decide, ⟨_, rfl⟩⟩

theorem witness_StepRunsTheDecodedInstruction :
    (start 0xFFFD [0x22, 0x01, 0x02] [] []).running ∧
    decode ((start 0xFFFD [0x22, 0x01, 0x02] [] []).mem.readBytes 0xFFFD longestInstr) = .ok (.add 1 2, [0x00]) ∧
    ¬ PastTop (start 0xFFFD [0x22, 0x01, 0x02] [] []) (Instr.length (.add 1 2)) := ⟨by decide, rfl, by decide⟩

theorem witness_HaltedCoreNeverChanges : (start 0x0100 [0x22, 0x01, 0x02] [] [.halt]).flags.halt = true := by decide

theorem witness_FaultingStepWritesOnlyHaltAndFault :
    (start 0x0100 [0xDF] [] []).running ∧ (start 0x0100 [0xDF] [] []).fault = .none ∧
    ∃ t, step (start 0x0100 [0xDF] [] []) = .next t ∧ t.fault ≠ .none := ⟨by decide, by decide, _, rfl, by decide⟩

/-- Each row of 60_exceptions.md R192, and an instruction that passes every check. -/
theorem witness_FirstFailingCheckIsTheFault :
    firstFault defaultOpTab (start 0xFFFF [0xFF] [] []) = some .unregisteredOpcode ∧
    firstFault defaultOpTab (start 0xFFFD [0x10, 0x0A, 0x00] [] []) = some .addressRange ∧
    firstFault defaultOpTab (start 0x0100 [0x25, 0x0A, 0x01] [] []) = some .registerIndex ∧
    firstFault defaultOpTab (start 0x0100 [0x14, 0xFF, 0xFF, 0x0A] [] []) = some .addressRange ∧
    firstFault defaultOpTab (start 0x0100 [0x25, 0x01, 0x0B] [] []) = some .registerIndex ∧
    firstFault defaultOpTab (start 0x0100 [0x12, 0x03, 0xFF, 0xFF] [] []) = some .addressRange ∧
    firstFault defaultOpTab (start 0x0100 [0x25, 0x02, 0x01] [] []) = some .divideByZero ∧
    firstFault defaultOpTab (start 0x0100 [0x12, 0x09, 0xFF, 0xFE] [] []) = none := by decide

theorem witness_DestinationResolution :
    dstFault (start 0xFFFF [0x0A] [] []) .register 0xFFFF = some .registerIndex ∧
    dstFault (start 0xFFFF [0x09] [] []) .register 0xFFFF = none ∧
    dstFault (start 0xFFFE [0xFF, 0xFF] [] []) .memory 0xFFFE = some .addressRange ∧
    dstFault (start 0xFFFE [0xFF, 0xFE] [] []) .memory 0xFFFE = none ∧
    dstFault (start 0xFFFE [0xFF, 0xFF] [] []) .memoryPointer 0xFFFE = some .addressRange ∧
    dstFault (withBytes (start 0xFFFE [0x20, 0x00] [] []) 0x2000 [0xFF, 0xFF]) .memoryPointer 0xFFFE = some .addressRange ∧
    dstFault (start 0xFFFE [0xFF, 0xFE] [] []) .memoryPointer 0xFFFE = none ∧ 0xFFFF + dlen .register ≤ 65536 ∧
    0xFFFE + dlen .memoryPointer ≤ 65536 := by decide

theorem witness_SourceResolution :
    srcFault (start 0xFFFF [0x0A] [] []) .register 0xFFFF = some .registerIndex ∧
    srcFault (start 0xFFFF [0x09] [] []) .register 0xFFFF = none ∧
    srcFault (start 0xFFFE [0xFF, 0xFF] [] []) .immediate 0xFFFE = none ∧
    srcFault (start 0xFFFE [0xFF, 0xFF] [] []) .memory 0xFFFE = some .addressRange ∧
    srcFault (start 0xFFFE [0xFF, 0xFE] [] []) .memory 0xFFFE = none ∧
    srcFault (withBytes (start 0xFFFE [0x20, 0x00] [] []) 0x2000 [0xFF, 0xFF]) .memoryPointer 0xFFFE = some .addressRange ∧
    srcFault (start 0xFFFE [0xFF, 0xFE] [] []) .memoryPointer 0xFFFE = none ∧ 0xFFFE + slen .immediate ≤ 65536 := by decide

theorem witness_WritebackDeliversTheValue :
    (start 0x0101 [0xFF, 0xFE] [] []).mem.wf ∧
    resolveDstAt (start 0x0101 [0xFF, 0xFE] [] []) .memory 0x0101 = .ok (.mem 0xFFFE) := ⟨by decide, rfl⟩

theorem witness_ResultlessHandlersPassR0 :
    (∃ out, handlerOf .stdin (withAnswers (atPc 0) [some 0x61] []) 0 = .ok out ∧ out.target = none) ∧
    (∃ out, handlerOf .jz (start 0 [] [(0, 7)] []) 0x0200 = .ok out ∧ out.target = none) ∧
    Mnemonic.jz ∈ [Mnemonic.stdin, .jz] := ⟨⟨_, rfl, rfl⟩, ⟨_, rfl, rfl⟩, by decide⟩

theorem witness_StdinMakesOneAttempt :
    (withAnswers (atPc 0) [some 0x00] []).ports.nextInput = some 0x00 ∧
    (withAnswers (atPc 0) [none] []).ports.nextInput = none := by decide

theorem witness_EnvironmentFixesTheAnswers :
    (withAnswers (atPc 0xFFFD) [none] [some 0x1234]).ports.inputs = none :: [] ∧
    (withAnswers (atPc 0xFFFD) [none] [some 0x1234]).ports.answers = some 0x1234 :: [] ∧ serviceOf 0x0A = some .videoUpdate ∧
    ¬ PastTop (withAnswers (atPc 0xFFFD) [none] [some 0x1234]) 3 := by decide

theorem witness_ServiceNumbering :
    10 < (0x000B : Word).toNat ∧ 10 < (0x0100 : Word).toNat ∧ 10 < (0xFFFF : Word).toNat := by decide

theorem witness_IntImmediateDispatches :
    PastTop (atPc 0xFFFE) 3 ∧ ¬ PastTop (atPc 0xFFFD) 3 ∧ serviceOf 0x000A = some .videoUpdate ∧ serviceOf 0x000B = none := by
  decide

theorem witness_IntRegisterDispatches :
    PastTop (atPc 0xFFFF) 2 ∧ ¬ PastTop (atPc 0xFFFE) 2 ∧ 9 < (0x0A : Byte).toNat ∧ indexByte 9 = 0x09 := by decide

theorem witness_CmpImmediateSetsFourFlags : PastTop (atPc 0xFFFE) 3 ∧ ¬ PastTop (atPc 0xFFFD) 3 := by decide

theorem witness_CmpRegisterSetsFourFlags :
    PastTop (atPc 0xFFFF) 2 ∧ ¬ PastTop (atPc 0xFFFE) 2 ∧ 9 < (0x0A : Byte).toNat := by decide

theorem witness_MovImmediateLoadsRegister :
    PastTop (atPc 0xFFFD) 4 ∧ ¬ PastTop (atPc 0xFFFC) 4 ∧ 9 < (0x0A : Byte).toNat := by decide

theorem witness_MovRegisterCopies :
    PastTop (atPc 0xFFFE) 3 ∧ ¬ PastTop (atPc 0xFFFD) 3 ∧ 9 < (0x0A : Byte).toNat := by decide

theorem witness_MovMemoryLoadsRegister :
    PastTop (atPc 0xFFFD) 4 ∧ ¬ PastTop (atPc 0xFFFC) 4 ∧ 9 < (0x0A : Byte).toNat ∧ (0xFFFE : Word) ≠ 0xFFFF := by decide

theorem witness_MovPointerLoadsRegister :
    PastTop (atPc 0xFFFD) 4 ∧ ¬ PastTop (atPc 0xFFFC) 4 ∧ 9 < (0x0A : Byte).toNat ∧ (0xFFFE : Word) ≠ 0xFFFF ∧
    (withBytes (atPc 0) 0xFFFE [0xFF, 0xFF]).wordAt 0xFFFE = 0xFFFF ∧
    (withBytes (atPc 0) 0xFFFE [0xFF, 0xFE]).wordAt 0xFFFE ≠ 0xFFFF := by decide

theorem witness_MovStoresToMemory :
    (atPc 0xFFFC).mem.wf ∧ PastTop (atPc 0xFFFD) 4 ∧ ¬ PastTop (atPc 0xFFFC) 4 ∧ 9 < (0x0A : Byte).toNat ∧
    (0xFFFE : Word) ≠ 0xFFFF := by decide

theorem witness_MovStoresThroughPointer :
    (withBytes (atPc 0) 0xFFFE [0xFF, 0xFE]).mem.wf ∧ PastTop (atPc 0xFFFD) 4 ∧
    ¬ PastTop (withBytes (atPc 0) 0xFFFE [0xFF, 0xFE]) 4 ∧ 9 < (0x0A : Byte).toNat ∧ (0xFFFE : Word) ≠ 0xFFFF ∧
    (withBytes (atPc 0) 0xFFFE [0xFF, 0xFF]).wordAt 0xFFFE = 0xFFFF ∧
    (withBytes (atPc 0) 0xFFFE [0xFF, 0xFE]).wordAt 0xFFFE ≠ 0xFFFF := by decide

theorem witness_PointerRoundTripYieldsTheValue :
    (start 0xFFF4 [] [(1, 0xBEEF), (2, 0x2000)] []).mem.wf ∧
    (start 0xFFF4 [] [(1, 0xBEEF), (2, 0x2000)] []).pc.toNat + 12 ≤ 65536 ∧
    (start 0xFFF4 [] [(1, 0xBEEF), (2, 0x2000)] []).reg 2 = 0x2000 ∧ (0x2000 : Word).toNat + 1 < (0x2002 : Word).toNat := by
  decide

/-- `mov [0xFFFE], r1` at 0xFFFA writes the whole instruction `int r4` after it. -/
theorem witness_StoreIsSeenByTheNextFetch :
    (start 0xFFFA [] [(1, 0x0504)] []).running ∧ (start 0xFFFA [] [(1, 0x0504)] []).mem.wf ∧
    ¬ PastTop (start 0xFFFA [] [(1, 0x0504)] []) 4 ∧ (0xFFFE : Word) ≠ 0xFFFF ∧
    (0xFFFA + 4) % 65536 + Instr.length (.intReg 4) ≤ 65536 ∧
    ∀ k : Fin 2, (encode (.intReg 4))[k.val]? =
      some ((start 0xFFFA [] [(1, 0x0504)] []).byteAfterStore 0xFFFE 0x0504 (0xFFFE + k.val)) := by decide

/-- Program P7: `mov [0x000A], r1` at 0x0004 writes the immediate of `mov r2, #0x0000` at 0x0008. -/
theorem witness_StoreIsSeenByTheNextFetch_P7 :
    ∀ k : Fin 4, (encode (.movRegImm 2 0x002A))[k.val]? =
      some ((start 0x0004 [0x14, 0x00, 0x0A, 0x01, 0x10, 0x02, 0x00, 0x00] [(1, 0x002A)] []).byteAfterStore 0x000A 0x002A
        ((0x0004 + 4) % 65536 + k.val)) := by decide

/-- Through the pointer cell at 0x3000, a store at 0x0104 of an opcode that is not registered. -/
theorem witness_StoreIsSeenByTheNextFetch_pointer :
    (withBytes (start 0x0100 [0x15, 0x30, 0x00, 0x01] [(1, 0x0600)] []) 0x3000 [0x01, 0x04]).wordAt 0x3000 = 0x0104 ∧
    defaultOpTab.lookup ((withBytes (start 0x0100 [] [(1, 0x0600)] []) 0x3000 [0x01, 0x04]).byteAfterStore 0x0104 0x0600
      ((0x0100 + 4) % 65536)) = none := by decide

theorem witness_IncAddsOne :
    PastTop (atPc 0xFFFE) 3 ∧ ¬ PastTop (atPc 0xFFFD) 3 ∧ 9 < (0x0A : Byte).toNat := by decide

theorem witness_DecSubtractsOne :
    PastTop (atPc 0xFFFE) 3 ∧ ¬ PastTop (atPc 0xFFFD) 3 ∧ 9 < (0x0A : Byte).toNat := by decide

theorem witness_AddAddsToAccumulator :
    PastTop (atPc 0xFFFE) 3 ∧ ¬ PastTop (atPc 0xFFFD) 3 ∧ 9 < (0x0A : Byte).toNat := by decide

theorem witness_SubSubtractsFromAccumulator :
    PastTop (atPc 0xFFFE) 3 ∧ ¬ PastTop (atPc 0xFFFD) 3 ∧ 9 < (0x0A : Byte).toNat := by decide

theorem witness_MulKeepsTheLowHalf :
    PastTop (atPc 0xFFFE) 3 ∧ ¬ PastTop (atPc 0xFFFD) 3 ∧ 9 < (0x0A : Byte).toNat := by decide

theorem witness_DivDividesOrFaults :
    PastTop (atPc 0xFFFE) 3 ∧ ¬ PastTop (atPc 0xFFFD) 3 ∧ 9 < (0x0A : Byte).toNat ∧ (atPc 0xFFFD).reg 1 = 0x0000 ∧
    (start 0xFFFD [] [(1, 1)] []).reg 1 ≠ 0x0000 := by decide

theorem witness_ShlDoubles :
    PastTop (atPc 0xFFFE) 3 ∧ ¬ PastTop (atPc 0xFFFD) 3 ∧ 9 < (0x0A : Byte).toNat := by decide

theorem witness_ShrHalves :
    PastTop (atPc 0xFFFE) 3 ∧ ¬ PastTop (atPc 0xFFFD) 3 ∧ 9 < (0x0A : Byte).toNat := by decide

theorem witness_ImmediateJumpsGoToTheirTarget : PastTop (atPc 0xFFFE) 3 ∧ ¬ PastTop (atPc 0xFFFD) 3 := by decide

theorem witness_RegisterJumpsGoToTheirTarget :
    PastTop (atPc 0xFFFF) 2 ∧ ¬ PastTop (atPc 0xFFFE) 2 ∧ 9 < (0x0A : Byte).toNat := by decide

theorem witness_FlagsChangeOnlyByTheirWriters :
    (∃ t, exec (.inc 1 1) (start 0 [] [(1, 0xFFFF)] []) = .next t ∧
      t.flags.get .overflow ≠ (start 0 [] [(1, 0xFFFF)] []).flags.get .overflow) ∧
    ∃ t, exec (.div 1 1) (atPc 0) = .next t ∧ t.flags.get .halt ≠ (atPc 0).flags.get .halt :=
  ⟨⟨_, rfl, by decide⟩, _, rfl, by decide⟩

theorem witness_RegistersChangeOnlyByTheirWriters :
    (∃ t, exec (.movRegImm 9 1) (atPc 0) = .next t ∧ t.reg 9 ≠ (atPc 0).reg 9) ∧
    ∃ t, exec .stdin (withAnswers (atPc 0) [some 0x61] []) = .next t ∧ t.reg 0 ≠ (atPc 0).reg 0 :=
  ⟨⟨_, rfl, by decide⟩, _, rfl, by decide⟩

theorem witness_MemoryChangesOnlyByMovStores :
    (start 0 [] [(1, 0x1234)] []).mem.wf ∧ ∃ t, exec (.movMemReg 0xFFFE 1) (start 0 [] [(1, 0x1234)] []) = .next t ∧
      t.byteAt 0xFFFF ≠ (start 0 [] [(1, 0x1234)] []).byteAt 0xFFFF := ⟨by decide, _, rfl, by decide⟩

theorem witness_ProgramCounterMovesOneWay :
    (∃ t, exec (.jmpImm 0xFFFF) (atPc 0) = .next t) ∧ (∃ t, exec .nop (atPc 0xFFFF) = .next t) ∧
    ∃ t, exec (.jmpReg 0x0A) (atPc 0) = .next t := ⟨⟨_, rfl⟩, ⟨_, rfl⟩, _, rfl⟩

theorem witness_TraceOnlyGrows :
    ∃ t, step (start 0 [0x02] [] []) = .next t ∧ t.ports.trace = [.out 0x00] := ⟨_, rfl, by decide⟩

/-- Two states that differ in all of DATA, OVERFLOW and UNDERFLOW, and one step of each. -/
theorem witness_UnreadFlagsAreInvisibleToPrograms :
    SameToProgram (start 0 [0x01] [] []) (start 0 [0x01] [] [.data, .overflow, .underflow]) ∧
    (∃ t, Sys2Proof.core.run 1 (start 0 [0x01] [] []) = .next t) ∧
    ∃ t, Sys2Proof.core.run 1 (start 0 [0x01] [] [.data, .overflow, .underflow]) = .next t :=
  ⟨⟨rfl, rfl, rfl, rfl, rfl, rfl, rfl, rfl, rfl⟩, ⟨_, rfl⟩, _, rfl⟩

theorem witness_HaltIsEnteredByHltOrFault :
    (atPc 0).running ∧ (∃ t, step (atPc 0) = .next t ∧ t.flags.halt = true) ∧
    ∃ t, step (start 0 [0x06] [] []) = .next t ∧ t.flags.halt = true :=
  ⟨by decide, ⟨_, rfl, by decide⟩, _, rfl, by decide⟩

theorem witness_StepKeepsTheInvariant :
    (start 0 [0x14, 0x20, 0x00, 0x01] [(1, 0x1234)] []).Inv ∧
    ∃ t, step (start 0 [0x14, 0x20, 0x00, 0x01] [(1, 0x1234)] []) = .next t := ⟨by decide, _, rfl⟩

theorem witness_HostLoadsOnlyBeforeTheFirstStep :
    (Session.mk (atPc 0) false).core.mem.wf ∧ (0xFFFE : Word).toNat + [0x01, (0x00 : Byte)].length ≤ 65536 ∧
    (Session.mk (atPc 0) false).stepped = false ∧ (Session.mk (atPc 0) true).stepped = true := by decide

end Sys2Proof.Tests
end

/-! State family (10_state.md): what every instruction and every step keeps. First what a handler, a commit and a step can do,
each said once; then who writes flags, registers, PC and trace, the invariant, what no program can observe, and reset. -/

namespace Sys2Proof.Machine

open Sys2Proof

/-! ## One flag operation, one frame -/

theorem Flags.get_setHalt {n : FlagName} (f : Flags) (b : Bool) (h : n ≠ .halt) :
    ({ f with halt := b } : Flags).get n = f.get n := by
  cases n with
  | halt => exact absurd rfl h
  | _ => rfl

theorem Flags.get_setOverflow {n : FlagName} (f : Flags) (x : Int) (h : n ≠ .overflow) :
    (f.setOverflow x).get n = f.get n := by
  cases n with
  | overflow => exact absurd rfl h
  | _ => rfl

theorem Flags.get_setUnderflow {n : FlagName} (f : Flags) (x : Int) (h : n ≠ .underflow) :
    (f.setUnderflow x).get n = f.get n := by
  cases n with
  | underflow => exact absurd rfl h
  | _ => rfl

theorem Flags.get_compare {n : FlagName} (f : Flags) (r v : Word) (h : n ∉ flagsWritten .cmp) :
    (f.compare r v).get n = f.get n := by
  cases n with
  | greater | less | equal | zero => exact absurd (by decide) h
  | _ => rfl

theorem Flags.get_input {n : FlagName} (f : Flags) (a : Option Byte) (h : n ∉ flagsWritten .stdin) :
    (f.input a).get n = f.get n := by
  cases n with
  | zero | data => exact absurd (by decide) h
  | _ => rfl

/-- Flags that differ at most where the table of 10_state.md R16 lets `m` write. -/
def FlagFrame (m : Mnemonic) (f g : Flags) : Prop := ∀ n, n ∉ flagsWritten m → g.get n = f.get n

theorem FlagFrame.refl (m : Mnemonic) (f : Flags) : FlagFrame m f f := fun _ _ => rfl

theorem FlagFrame.setOverflow {m : Mnemonic} (f : Flags) (x : Int) (hm : .overflow ∈ flagsWritten m) :
    FlagFrame m f (f.setOverflow x) :=
  fun _ hn => Flags.get_setOverflow f x fun e => hn (e ▸ hm)

theorem FlagFrame.setUnderflow {m : Mnemonic} (f : Flags) (x : Int) (hm : .underflow ∈ flagsWritten m) :
    FlagFrame m f (f.setUnderflow x) :=
  fun _ hn => Flags.get_setUnderflow f x fun e => hn (e ▸ hm)

/-! ## What a handler can do -/

/-- The mnemonics whose handlers compute no result and leave `R[0]` for writeback (40_execution_cycle.md R91). -/
def resultlessMnemonics : List Mnemonic := [.hlt, .nop, .stdout, .stdin, .int, .cmp] ++ jumpMnemonics

/-- Everything the handler of `m` can leave when it does not fault, family by family (40_execution_cycle.md R86). -/
inductive HandlerEffect (s : State) (v : Word) (m : Mnemonic) : HandlerOut → Prop
  /-- `mov` and arithmetic: a result for the destination, and flags. -/
  | computes (w : Word) (f : Flags) (hm : m ∉ resultlessMnemonics) (hf : FlagFrame m s.flags f) :
      HandlerEffect s v m { HandlerOut.idle s with dst := w, flags := f }
  /-- `hlt`, `nop`, `cmp`, and `int` with an unrecognized number: at most flags. -/
  | onlyFlags (f : Flags) (hf : FlagFrame m s.flags f) : HandlerEffect s v m { HandlerOut.idle s with flags := f }
  /-- `stdout`: one byte to the sink. -/
  | sends (b : Byte) : HandlerEffect s v m { HandlerOut.idle s with ports := s.ports.outByte b }
  /-- `stdin`: one attempt, whose answer goes to `R[0]` and two flags. -/
  | attempts (w : Word) (f : Flags) (hm : m = .stdin) (hf : FlagFrame m s.flags f) :
      HandlerEffect s v m { HandlerOut.idle s with dst := w, flags := f, r0 := some w, ports := s.ports.inByte }
  /-- `int` with a recognized number: one call, whose value goes to `R[0]` when there is one. -/
  | calls (n : Service) (a : Option Word) (hm : m = .int) :
      HandlerEffect s v m
        { HandlerOut.idle s with dst := a.getD (s.reg 0), r0 := a, ports := s.ports.callService n s.regs }
  /-- A jump: its source value as the target when it is taken. -/
  | jumps (taken : Bool) (hm : m ∈ jumpMnemonics) :
      HandlerEffect s v m { HandlerOut.idle s with target := if taken then some v else none }

theorem intHandler_effect {s : State} {v : Word} {out : HandlerOut} (h : intHandler s v = .ok out) :
    HandlerEffect s v .int out := by
  unfold intHandler at h
  split at h
  · obtain rfl := Except.ok.inj h
    exact .onlyFlags s.flags (.refl _ _)
  · obtain rfl := Except.ok.inj h
    exact .calls _ _ rfl

theorem divHandler_effect {s : State} {v : Word} {out : HandlerOut} (h : divHandler s v = .ok out) :
    HandlerEffect s v .div out := by
  unfold divHandler at h
  split at h
  · cases h
  · obtain rfl := Except.ok.inj h
    exact .computes _ s.flags (by decide) (.refl _ _)

theorem handlerOf_effect {m : Mnemonic} {s : State} {v : Word} {out : HandlerOut} (h : handlerOf m s v = .ok out) :
    HandlerEffect s v m out := by
  cases m
  case int => exact intHandler_effect h
  case div => exact divHandler_effect h
  all_goals obtain rfl := Except.ok.inj h
  case hlt => exact .onlyFlags _ fun n hn => Flags.get_setHalt s.flags true fun e => hn (by simp [flagsWritten, e])
  case nop => exact .onlyFlags s.flags (.refl _ _)
  case cmp => exact .onlyFlags _ fun n hn => Flags.get_compare s.flags _ _ hn
  case stdout => exact .sends _
  case stdin => exact .attempts _ _ rfl fun n hn => Flags.get_input s.flags _ hn
  case mov | shl | shr => exact .computes _ s.flags (by decide) (.refl _ _)
  case inc | add | mul => exact .computes _ _ (by decide) (.setOverflow s.flags _ (by decide))
  case dec | sub => exact .computes _ _ (by decide) (.setUnderflow s.flags _ (by decide))
  all_goals exact .jumps _ (by decide)

theorem handlerOf_flags {m : Mnemonic} {s : State} {v : Word} {out : HandlerOut} (h : handlerOf m s v = .ok out) :
    FlagFrame m s.flags out.flags := by
  cases handlerOf_effect h with
  | computes _ _ _ hf | onlyFlags _ hf | attempts _ _ _ hf => exact hf
  | sends | calls | jumps => exact .refl _ _

/-- Only `stdin` and `int` write `R[0]` directly (10_state.md R12). -/
theorem handlerOf_r0 {m : Mnemonic} {s : State} {v : Word} {out : HandlerOut} (h : handlerOf m s v = .ok out)
    (hr : out.r0 ≠ none) : m ∈ [.stdin, .int] := by
  cases handlerOf_effect h with
  | computes | onlyFlags | sends | jumps => exact absurd rfl hr
  | attempts _ _ hm | calls _ _ hm => simp [hm]

/-- A handler that computes no result leaves `R[0]`, after its own direct write, for writeback (40_execution_cycle.md R91). -/
theorem handlerOf_resultless_dst {m : Mnemonic} {s : State} {v : Word} {out : HandlerOut} (h : handlerOf m s v = .ok out)
    (hm : m ∈ resultlessMnemonics) : out.dst = (applyR0 s out.r0).reg 0 := by
  cases handlerOf_effect h with
  | computes _ _ hc => exact absurd hm hc
  | onlyFlags | sends | jumps => rfl
  | attempts => simp [applyR0]
  | calls _ a => cases a <;> simp [applyR0]

/-- Only a jump transfers control, and its target is its source value (46_jumps.md R160). -/
theorem handlerOf_target {m : Mnemonic} {s : State} {v w : Word} {out : HandlerOut} (h : handlerOf m s v = .ok out)
    (ht : out.target = some w) : m ∈ jumpMnemonics ∧ v = w := by
  cases handlerOf_effect h with
  | computes | onlyFlags | sends | attempts | calls => cases ht
  | jumps taken hm => exact ⟨hm, by simpa using (Option.ite_none_right_eq_some.mp ht).2⟩

/-- A handler makes at most one transaction, at the end of the trace (10_state.md R22). -/
theorem handlerOf_trace {m : Mnemonic} {s : State} {v : Word} {out : HandlerOut} (h : handlerOf m s v = .ok out) :
    ∃ events, out.ports.trace = s.ports.trace ++ events ∧ events.length ≤ 1 := by
  cases handlerOf_effect h with
  | computes | onlyFlags | jumps => exact ⟨[], (List.append_nil _).symm, by simp⟩
  | sends | attempts | calls => exact ⟨[_], rfl, by simp⟩

/-! ## What a destination and a commit can do -/

/-- Only an index byte, or no destination operand at all, resolves to a register (40_execution_cycle.md R84). -/
theorem resolveDst_reg {s : State} {d : DstOperand} {j : Fin 10} (h : resolveDst s d = .ok (.reg j)) :
    d = .register (indexByte j) ∨ (d = .none ∧ j = 0) := by
  have not_storeLoc (a : Word) : storeLoc a ≠ .ok (.reg j) := fun ha => by cases (storeLoc_ok ha).2
  cases d with
  | none => cases h; exact .inr ⟨rfl, rfl⟩
  | register b =>
    rcases regIndex_cases b with ⟨i, hib, hi⟩ | ⟨-, hi⟩
    · simp only [resolveDst, hi, Except.map, Except.ok.injEq, Loc.reg.injEq] at h
      subst h
      exact .inl (congrArg _ (BitVec.eq_of_toNat_eq (by rw [indexByte_toNat, hib])))
    · simp [resolveDst, hi, Except.map] at h
  | memory a => exact absurd h (not_storeLoc a)
  | memoryPointer p =>
    rcases memRead2_cases s p.toNat with ⟨-, hr⟩ | ⟨-, hr⟩ <;> simp only [resolveDst, hr, bind, Except.bind] at h
    · exact absurd h (not_storeLoc _)
    · cases h

/-- An instruction without a destination operand computes no result (30_encoding.md R62). -/
theorem Instr.resultless_of_dst_none {i : Instr} (h : i.form.dst = .none) : i.form.mnemonic ∈ resultlessMnemonics := by
  cases i
  case movRegImm | movRegReg | movRegMem | movRegPtr | movMemReg | movPtrReg => cases h
  case inc | dec | add | sub | mul | div | shl | shr => cases h
  all_goals simp [Instr.form, resultlessMnemonics, jumpMnemonics]

theorem applyR0_reg_ne {j : Fin 10} (s : State) (o : Option Word) (hj : j ≠ 0) : (applyR0 s o).reg j = s.reg j := by
  cases o with
  | none => rfl
  | some v => exact State.reg_setReg_ne s 0 j v hj

/-- The state of a commit before its jump or writeback holds the registers of the state before, but for the direct write. -/
theorem applyR0_reg_cases (s : State) (f : Flags) (p : Ports) (o : Option Word) (j : Fin 10) :
    (applyR0 ((s.setFlags f).setPorts p) o).reg j = s.reg j ∨ (j = 0 ∧ o ≠ none) := by
  by_cases hj : j = 0
  · cases o with
    | none => exact .inl rfl
    | some v => exact .inr ⟨hj, nofun⟩
  · exact .inl (applyR0_reg_ne _ o hj)

/-- A register that a commit changes is `R[0]`, written directly, or the destination, with another value. -/
theorem commit_reg_cases {s t : State} {len : Nat} {loc : Loc} {out : HandlerOut} {j : Fin 10}
    (h : commit s len loc out = .ok t) (hne : t.reg j ≠ s.reg j) :
    (j = 0 ∧ out.r0 ≠ none) ∨ (loc = .reg j ∧ out.dst ≠ s.reg j) := by
  rcases applyR0_reg_cases s out.flags out.ports out.r0 j with hkeep | hdirect
  · rcases commit_ok h with ⟨_, -, rfl⟩ | ⟨-, u, hu, rfl⟩
    · exact absurd hkeep hne
    · rcases writeback_ok hu with ⟨i, rfl, rfl⟩ | ⟨a, -, -, rfl⟩
      · by_cases hij : j = i
        · subst hij
          exact .inr ⟨rfl, by simpa using hne⟩
        · rw [State.setPc_reg, State.reg_setReg_ne _ i j _ hij] at hne
          exact absurd hkeep hne
      · exact absurd hkeep hne
  · exact .inl hdirect

/-- A commit jumps to the handler's target, or advances PC by the length (40_execution_cycle.md R88, R89). -/
theorem commit_pc {s t : State} {len : Nat} {loc : Loc} {out : HandlerOut} (h : commit s len loc out = .ok t) :
    out.target = some t.pc ∨ Advanced len s t := by
  rcases commit_ok h with ⟨target, ht, rfl⟩ | ⟨-, u, -, rfl⟩
  · exact .inl ht
  · exact .inr (trunc16_toNat (s.pc.toNat + len))

/-- Writeback keeps the canonical form. -/
theorem writeback_wf {s t : State} {loc : Loc} {v : Word} (h : writeback s loc v = .ok t) (hw : s.mem.wf) : t.mem.wf := by
  cases loc with
  | reg i => cases h; exact hw
  | mem a => exact memWrite2_wf h hw

/-- A commit keeps the canonical form. -/
theorem commit_wf {s t : State} {len : Nat} {loc : Loc} {out : HandlerOut} (h : commit s len loc out = .ok t)
    (hw : s.mem.wf) : t.mem.wf := by
  rcases commit_ok h with ⟨target, -, rfl⟩ | ⟨-, u, hu, rfl⟩
  · simpa using hw
  · rw [State.setPc_mem]
    exact writeback_wf hu (by simpa using hw)

/-! ## What a step can do -/

/-- Everything a step can do: nothing when Halted; Running, take a fault, or commit what the fetched instruction's handler
left. -/
theorem step_cases {s t : State} (h : step s = .next t) :
    (s.flags.halt = true ∧ t = s) ∨ (s.running ∧ ∃ k, t = s.raiseFault k) ∨
    (s.running ∧ ∃ i loc v out, fetch s = .ok i ∧ handlerOf i.form.mnemonic s v = .ok out ∧
      commit s i.length loc out = .ok t) := by
  by_cases hr : s.running
  · rcases step_running hr h with ⟨k, -, rfl⟩ | ⟨i, hf, he⟩
    · exact .inr (.inl ⟨hr, k, rfl⟩)
    · rcases exec_cases he with ⟨k, rfl, -⟩ | ⟨loc, v, out, -, -, hh, hc⟩
      · exact .inr (.inl ⟨hr, k, rfl⟩)
      · exact .inr (.inr ⟨hr, i, loc, v, out, hf, hh, hc⟩)
  · have hh : s.flags.halt = true := by simpa using hr
    rw [step_halted hh] at h
    cases h
    exact .inl ⟨hh, rfl⟩

/-! ## The invariant -/

theorem raiseFault_inv {s : State} (k : FaultKind) (h : s.mem.wf) : (s.raiseFault k).Inv := ⟨h, fun _ => rfl⟩

/-- A Running state that has the invariant has taken no fault. -/
theorem State.Inv.fault_of_running {s : State} (h : s.Inv) (hr : s.running) : s.fault = .none := by
  by_contra hk
  exact absurd (h.2 hk) (by simp [hr])

/-- A commit leaves FAULT as it was, so from a Running core it cannot leave a fault without HALT. -/
theorem commit_inv {s t : State} {len : Nat} {loc : Loc} {out : HandlerOut} (h : commit s len loc out = .ok t)
    (hi : s.Inv) (hr : s.running) : t.Inv := by
  obtain ⟨hfault, -, -⟩ := commit_fields h
  exact ⟨commit_wf h hi.1, fun hk => absurd (hfault.trans (hi.fault_of_running hr)) hk⟩

/-- Settles O56: a step does nothing, takes a fault (which sets HALT), or commits from a state without a fault. -/
theorem stepKeepsTheInvariant : Obligations.StepKeepsTheInvariant := by
  intro s t hi h
  rcases step_cases h with ⟨-, rfl⟩ | ⟨-, k, rfl⟩ | ⟨hr, _, _, _, _, -, -, hc⟩
  · exact hi
  · exact raiseFault_inv k hi.1
  · exact commit_inv hc hi hr

/-! ## Who writes what -/

/-- Settles O49: a fault writes HALT alone, and a commit leaves the flags the handler left. -/
theorem flagsChangeOnlyByTheirWriters : Obligations.FlagsChangeOnlyByTheirWriters := by
  intro i s t n h hne
  rcases exec_cases h with ⟨k, rfl, -⟩ | ⟨loc, v, out, -, -, hh, hc⟩
  · refine .inr ⟨?_, k, rfl⟩
    by_contra hn
    exact hne (Flags.get_setHalt s.flags true hn)
  · obtain ⟨-, hflags, -⟩ := commit_fields hc
    refine .inl ?_
    by_contra hn
    exact hne (hflags ▸ handlerOf_flags hh n hn)

/-- Settles O50: a commit changes `R[0]` by a direct write or the destination by a result; without a destination operand the
pending value is `R[0]` itself. -/
theorem registersChangeOnlyByTheirWriters : Obligations.RegistersChangeOnlyByTheirWriters := by
  intro i s t j h hne
  rcases exec_cases h with ⟨k, rfl, -⟩ | ⟨loc, v, out, hd, -, hh, hc⟩
  · exact absurd rfl hne
  · rcases commit_reg_cases hc hne with ⟨rfl, hr0⟩ | ⟨rfl, hdst⟩
    · exact .inr ⟨rfl, handlerOf_r0 hh hr0⟩
    · rcases resolveDst_reg hd with hop | ⟨hnone, rfl⟩
      · exact .inl hop
      · refine .inr ⟨rfl, handlerOf_r0 hh fun hr0 => hdst ?_⟩
        rw [handlerOf_resultless_dst hh (Instr.resultless_of_dst_none hnone), hr0]
        rfl

/-- Settles O52: PC is as before, the handler's target, or advanced. -/
theorem programCounterMovesOneWay : Obligations.ProgramCounterMovesOneWay := by
  intro i s t h
  rcases exec_cases h with ⟨k, rfl, -⟩ | ⟨loc, v, out, -, hs, hh, hc⟩
  · exact .inl ⟨k, rfl, rfl⟩
  · rcases commit_pc hc with htarget | hadv
    · obtain ⟨hjump, rfl⟩ := handlerOf_target hh htarget
      exact .inr (.inr ⟨hjump, hs⟩)
    · exact .inr (.inl hadv)

/-- Settles O53: only a handler asks a collaborator, and at most once. -/
theorem traceOnlyGrows : Obligations.TraceOnlyGrows := by
  intro s t h
  have unchanged : ∃ events, s.ports.trace = s.ports.trace ++ events ∧ events.length ≤ 1 := ⟨[], by simp⟩
  rcases step_cases h with ⟨-, rfl⟩ | ⟨-, k, rfl⟩ | ⟨-, _, _, _, _, -, hh, hc⟩
  · exact unchanged
  · exact unchanged
  · obtain ⟨-, -, hports⟩ := commit_fields hc
    exact hports ▸ handlerOf_trace hh

/-! ## What no program can observe

`view` sets DATA, OVERFLOW, UNDERFLOW and FAULT to their reset values; two states are the same to a program exactly when
their views are equal. Every operation commutes with `view`, so equal views stay equal. -/

/-- The flags with DATA, OVERFLOW and UNDERFLOW, which no instruction reads (10_state.md R16), as after reset. -/
def Flags.view (f : Flags) : Flags := { f with data := false, overflow := false, underflow := false }

/-- What a program can tell of a state: FAULT, too, is hidden (10_state.md R17). -/
def State.view (s : State) : State := { s with flags := s.flags.view, fault := .none }

/-- What a program can tell of a handler's outcome. -/
def HandlerOut.view (out : HandlerOut) : HandlerOut := { out with flags := out.flags.view }

theorem sameToProgram_iff_view_eq {s t : State} : SameToProgram s t ↔ t.view = s.view := by
  simp [SameToProgram, State.view, Flags.view, and_comm, and_assoc]

@[simp] theorem State.view_view (s : State) : s.view.view = s.view := rfl
@[simp] theorem State.view_halt (s : State) : s.view.flags.halt = s.flags.halt := rfl

theorem fetch_view (s : State) : fetch s.view = fetch s := rfl

theorem resolveDst_view (s : State) (d : DstOperand) : resolveDst s.view d = resolveDst s d := by
  cases d <;> rfl

theorem resolveSrc_view (s : State) (o : SrcOperand) : resolveSrc s.view o = resolveSrc s o := by
  cases o <;> rfl

/-- No handler reads what `view` hides: the conditions read GREATER, LESS, EQUAL and ZERO alone. -/
theorem handlerOf_view (m : Mnemonic) (s : State) (v : Word) :
    (handlerOf m s.view v).map HandlerOut.view = (handlerOf m s v).map HandlerOut.view := by
  cases m
  case int =>
    simp only [handlerOf, intHandler]
    cases serviceOf v <;> rfl
  case div =>
    by_cases hv : v = 0x0000
    · simp only [handlerOf, divHandler, if_pos hv]
    · simp only [handlerOf, divHandler, if_neg hv]
      rfl
  all_goals rfl

theorem writeback_view (s : State) (loc : Loc) (v : Word) :
    (writeback s loc v).map State.view = writeback s.view loc v := by
  cases loc with
  | reg i => rfl
  | mem a =>
    simp only [writeback, memWrite2]
    split <;> rfl

theorem applyR0_view (s : State) (f : Flags) (p : Ports) (o : Option Word) :
    (applyR0 ((s.setFlags f).setPorts p) o).view = applyR0 ((s.view.setFlags f.view).setPorts p) o := by
  cases o <;> rfl

theorem commit_view (s : State) (len : Nat) (loc : Loc) (out : HandlerOut) :
    (commit s len loc out).map State.view = commit s.view len loc out.view := by
  have happly := applyR0_view s out.flags out.ports out.r0
  obtain ⟨dst, flags, r0, target, ports⟩ := out
  cases target with
  | some w => exact congrArg (fun u => Except.ok (State.setPc u w)) happly
  | none =>
    have hwrite := writeback_view (applyR0 ((s.setFlags flags).setPorts ports) r0) loc dst
    rw [happly] at hwrite
    simp only [commit, HandlerOut.view, ← hwrite]
    cases writeback (applyR0 ((s.setFlags flags).setPorts ports) r0) loc dst <;> rfl

/-- Handlers that leave the same but for what `view` hides commit to the same but for what `view` hides. -/
theorem commit_view_congr {s : State} {len : Nat} {loc : Loc} {out out' : HandlerOut} (h : out'.view = out.view) :
    (commit s.view len loc out').map State.view = (commit s len loc out).map State.view := by
  rw [commit_view, commit_view, State.view_view, h]

theorem attempt_view {h : Handler} (s : State) (dst : DstOperand) (src : SrcOperand)
    (hh : ∀ v, (h s.view v).map HandlerOut.view = (h s v).map HandlerOut.view) :
    (attempt s.view dst src h).map State.view = (attempt s dst src h).map State.view := by
  have hfits : fitsAt s.view (ilen dst.mode src.mode) = fitsAt s (ilen dst.mode src.mode) := rfl
  simp only [attempt, hfits, resolveDst_view, resolveSrc_view]
  split
  · cases resolveDst s dst with
    | error k => rfl
    | ok loc =>
      cases resolveSrc s src with
      | error k => rfl
      | ok v =>
        have hv := hh v
        cases ho : h s v <;> cases ho' : h s.view v <;> simp only [ho, ho', Except.map] at hv
        case error.error => simp only [ho, ho', bind, Except.bind, Except.map, hv]
        case ok.ok out out' =>
          simp only [ho, ho', bind, Except.bind]
          exact commit_view_congr (Except.ok.inj hv)
        all_goals cases hv
  · rfl

theorem settle_view (s : State) (r : Except FaultKind State) :
    (settle s r).view = (settle s.view (r.map State.view)).view := by
  cases r <;> rfl

theorem exec_view {i : Instr} {s t u : State} (ht : exec i s = .next t) (hu : exec i s.view = .next u) :
    u.view = t.view := by
  rw [exec_eq_instruction] at ht hu
  cases ht
  cases hu
  rw [settle_view, attempt_view s _ _ (handlerOf_view _ s), State.view_view, ← settle_view]

theorem step_view {s t u : State} (ht : step s = .next t) (hu : step s.view = .next u) : u.view = t.view := by
  simp only [step, State.view_halt, fetch_view] at ht hu
  cases hh : s.flags.halt with
  | true =>
    simp only [hh, if_true] at ht hu
    cases ht
    cases hu
    rfl
  | false =>
    simp only [hh] at ht hu
    cases hf : fetch s with
    | error k =>
      simp only [hf] at ht hu
      cases ht
      cases hu
      rfl
    | ok i =>
      simp only [hf] at ht hu
      exact exec_view ht hu

/-- A step keeps two states the same to a program. -/
theorem step_sameToProgram {s t s' t' : State} (h : SameToProgram s t) (hs : step s = .next s')
    (ht : step t = .next t') : SameToProgram s' t' := by
  rw [sameToProgram_iff_view_eq] at h ⊢
  obtain ⟨u, hu⟩ := step_next s.view
  rw [← step_view ht (h ▸ hu), step_view hs hu]

/-- A run of `n + 1` steps that answers a next state is one step and a run of `n`. -/
theorem run_succ_next {n : Nat} {s s' : State} (h : Sys2Proof.core.run (n + 1) s = .next s') :
    ∃ u : State, step s = .next u ∧ Sys2Proof.core.run n u = .next s' := by
  obtain ⟨u, hu⟩ := step_next s
  refine ⟨u, hu, ?_⟩
  have hc : Sys2Proof.core.step s = .next u := hu
  simpa only [Host.Core.run, hc] using h

/-- Settles O54, by induction on the number of steps. -/
theorem unreadFlagsAreInvisibleToPrograms : Obligations.UnreadFlagsAreInvisibleToPrograms := by
  intro n
  induction n with
  | zero =>
    intro s t s' t' h hs ht
    cases hs
    cases ht
    exact h
  | succ n ih =>
    intro s t s' t' h hs ht
    obtain ⟨u, hsu, hus⟩ := run_succ_next hs
    obtain ⟨w, htw, hwt⟩ := run_succ_next ht
    exact ih u w s' t' (step_sameToProgram h hsu htw) hus hwt

/-! ## Reset -/

/-- Settles O57. -/
theorem resetHasTheInvariant : Obligations.ResetHasTheInvariant :=
  ⟨State.reset_mem_wf, fun hk => absurd rfl hk⟩

theorem State.reset_reg (i : Fin 10) : State.reset.reg i = 0x0000 := by
  simp [State.reg, State.reset]

theorem Flags.reset_get (n : FlagName) : Flags.reset.get n = false := by
  cases n <;> rfl

/-- Settles O58: reset gives the reset state but for the record of the collaborators. -/
theorem resetZeroesTheMachine : Obligations.ResetZeroesTheMachine :=
  fun _ => ⟨State.reset_reg, Flags.reset_get, fun _ => rfl, rfl, rfl, rfl, rfl⟩

theorem fitsAt_one (s : State) : fitsAt s 1 = true :=
  decide_eq_true (by have := s.pc_le; omega)

/-- The byte 0x00 at PC, as zeroed memory has it, is `hlt` (30_encoding.md R62). -/
theorem fetch_of_zero {s : State} (h : s.byteAt s.pc.toNat = 0x00) : fetch s = .ok .hlt := by
  have hop : s.mem.read s.pc.toNat = 0x00 := h
  have hshape : shapeOf 0x00 = some (.nn .hlt) := rfl
  simp only [fetch, memRead1_ok s.pc_le, hop, bind, Except.bind, hshape, Shape.length, fitsAt_one, if_true,
    Memory.readBytes, decode, Shape.read]

/-- `hlt` sets HALT and advances PC by one byte; it fits wherever it stands (41_system_io.md R100). -/
theorem exec_hlt (s : State) :
    exec .hlt s = .next ((s.setFlags { s.flags with halt := true }).setPc (trunc16 (s.pc.toNat + 1))) := by
  refine exec_of_parts (fitsAt_one s) rfl rfl rfl ?_
  exact congrArg (fun u => Except.ok (State.setPc u _)) (State.setReg_reg_self (s.setFlags _) 0)

/-- Settles O59: zeroed memory holds `hlt` at ENTRY. -/
theorem unloadedCoreHaltsOnItsFirstStep : Obligations.UnloadedCoreHaltsOnItsFirstStep := by
  have hstep : step State.reset = exec .hlt State.reset := by
    simp only [step, fetch_of_zero (s := State.reset) rfl]
    rfl
  exact ⟨rfl, _, hstep.trans (exec_hlt _), ⟨rfl, rfl⟩, rfl, fun _ => rfl, fun _ => rfl, rfl⟩

end Sys2Proof.Machine

/-! Memory family (20_memory.md): what a read and a store do on every address, the fetch of the bytes that stand at PC, and who
writes memory. First the store byte by byte, the encoder against the decoder's formats, and the storing forms of mov, each said
once. -/

namespace Sys2Proof.Machine

open Sys2Proof

/-! ## The 16-bit store, byte by byte -/

/-- A store in range answers a state. -/
theorem memWrite2_in_range (s : State) {a : Nat} (v : Word) (h : a + 1 ≤ 0xFFFF) : ∃ t, memWrite2 s a v = .ok t :=
  ⟨_, if_neg (by omega)⟩

/-- Every byte of memory after a store (20_memory.md R32). -/
theorem memWrite2_byteAt {s t : State} {a : Nat} {v : Word} (h : memWrite2 s a v = .ok t) (hw : s.mem.wf) (b : Nat) :
    t.byteAt b = s.byteAfterStore a v b := by
  obtain ⟨ha, rfl⟩ := memWrite2_ok h
  exact Memory.read_write2 s.mem a b _ _ hw (by omega)

/-- A store changes memory alone. -/
theorem memWrite2_frame {s t : State} {a : Nat} {v : Word} (h : memWrite2 s a v = .ok t) :
    SameRegs s t ∧ t.pc = s.pc ∧ t.flags = s.flags ∧ Quiet s t := by
  obtain ⟨-, rfl⟩ := memWrite2_ok h
  exact ⟨fun _ => rfl, rfl, rfl, rfl, rfl⟩

@[simp] theorem State.byteAfterStore_self (s : State) (a : Nat) (v : Word) : s.byteAfterStore a v a = hiByte v :=
  if_pos rfl

@[simp] theorem State.byteAfterStore_succ (s : State) (a : Nat) (v : Word) :
    s.byteAfterStore a v (a + 1) = loByte v := by
  simp [State.byteAfterStore]

theorem State.byteAfterStore_of_ne (s : State) {a b : Nat} (v : Word) (h : b ≠ a) (h' : b ≠ a + 1) :
    s.byteAfterStore a v b = s.byteAt b := by
  simp [State.byteAfterStore, h, h']

/-! ## Reads and stores on every address -/

/-- Settles O8, by the range check of each read. -/
theorem readsAreBigEndianAndRanged : Obligations.ReadsAreBigEndianAndRanged := by
  intro s a
  exact ⟨fun h => if_pos h, memRead1_ok, fun h => if_pos h, memRead2_in_range s⟩

/-- Settles O9: out of range by the store's check, in range byte by byte. -/
theorem storeWritesTwoBytesHighFirst : Obligations.StoreWritesTwoBytesHighFirst := by
  intro s a v hw
  refine ⟨fun h => if_pos h, fun h => ?_⟩
  obtain ⟨t, ht⟩ := memWrite2_in_range s v h
  have hbyte := memWrite2_byteAt ht hw
  refine ⟨t, ht, memWrite2_wf ht hw, ?_, ?_, ?_, memWrite2_frame ht⟩
  · rw [hbyte, State.byteAfterStore_self, hiByte_toNat]
  · rw [hbyte, State.byteAfterStore_succ, loByte_toNat]
  · intro b hb hb'
    rw [hbyte, State.byteAfterStore_of_ne s v hb hb']

/-- A 16-bit read in range, from its two bytes. -/
theorem memRead2_eq_beWord (s : State) {a : Nat} (h : a + 1 ≤ 0xFFFF) :
    memRead2 s a = .ok (beWord (s.byteAt a) (s.byteAt (a + 1))) :=
  if_neg (by omega)

/-- Settles O10: both loads from the bytes that the store leaves. -/
theorem loadAfterStoreSeesItsBytes : Obligations.LoadAfterStoreSeesItsBytes := by
  intro s t a v hw h
  obtain ⟨ha, -⟩ := memWrite2_ok h
  have hbyte := memWrite2_byteAt h hw
  refine ⟨?_, fun ha2 => ⟨_, memRead2_eq_beWord t ha2, ?_⟩⟩
  · rw [memRead2_eq_beWord t ha, hbyte, hbyte, State.byteAfterStore_self, State.byteAfterStore_succ, beWord_hiByte_loByte]
  · have hnext : t.byteAt (a + 2) = s.byteAt (a + 2) :=
      (hbyte _).trans (State.byteAfterStore_of_ne s v (by omega) (by omega))
    rw [beWord_toNat, hnext, hbyte, State.byteAfterStore_succ, loByte_toNat]

/-! ## Who writes memory -/

theorem byteAt_congr {s t : State} (h : t.mem = s.mem) (b : Nat) : t.byteAt b = s.byteAt b :=
  congrArg (Memory.read · b) h

/-- A byte that a commit changes is one of the two at its location in memory. -/
theorem commit_byteAt_cases {s t : State} {len b : Nat} {loc : Loc} {out : HandlerOut}
    (h : commit s len loc out = .ok t) (hw : s.mem.wf) (hne : t.byteAt b ≠ s.byteAt b) :
    ∃ a, loc = .mem a ∧ (b = a.toNat ∨ b = a.toNat + 1) := by
  rcases commit_ok h with ⟨_, -, rfl⟩ | ⟨-, u, hu, rfl⟩
  · exact absurd (byteAt_congr (by simp) b) hne
  · cases loc with
    | reg i =>
      obtain rfl := Except.ok.inj hu
      exact absurd (byteAt_congr (by simp) b) hne
    | mem a =>
      refine ⟨a, rfl, ?_⟩
      by_contra hb
      obtain ⟨hb, hb'⟩ := not_or.mp hb
      have hkeep := (memWrite2_byteAt hu (by simpa using hw) b).trans (State.byteAfterStore_of_ne _ _ hb hb')
      exact hne (hkeep.trans (byteAt_congr (by simp) b))

/-- Only an address, or the address in a pointer cell, resolves to memory (40_execution_cycle.md R84). -/
theorem resolveDst_mem_cases {s : State} {d : DstOperand} {a : Word} (h : resolveDst s d = .ok (.mem a)) :
    d = .memory a ∨ ∃ p, d = .memoryPointer p ∧ a.toNat = s.wordAt p.toNat := by
  have of_storeLoc {w : Word} (hw : storeLoc w = .ok (.mem a)) : a = w := Loc.mem.inj (storeLoc_ok hw).2
  cases d with
  | none => cases h
  | register b =>
    rcases regIndex_cases b with ⟨i, -, hi⟩ | ⟨-, hi⟩ <;> simp [resolveDst, hi, Except.map] at h
  | memory w => exact .inl (congrArg _ (of_storeLoc h).symm)
  | memoryPointer p =>
    refine .inr ⟨p, rfl, ?_⟩
    rcases memRead2_cases s p.toNat with ⟨-, hr⟩ | ⟨-, hr⟩ <;> simp only [resolveDst, hr, bind, Except.bind] at h
    · rw [of_storeLoc h, s.wordAt_eq]
    · cases h

/-- The row of 30_encoding.md R62 with a destination address. -/
theorem Instr.eq_movMemReg_of_dst {i : Instr} {a : Word} (h : i.form.dst = .memory a) : ∃ r, i = .movMemReg a r := by
  cases i
  case movMemReg a' r => exact ⟨r, congrArg (Instr.movMemReg · r) (DstOperand.memory.inj h)⟩
  all_goals cases h

/-- The row of 30_encoding.md R62 with a destination pointer cell. -/
theorem Instr.eq_movPtrReg_of_dst {i : Instr} {p : Word} (h : i.form.dst = .memoryPointer p) :
    ∃ r, i = .movPtrReg p r := by
  cases i
  case movPtrReg p' r => exact ⟨r, congrArg (Instr.movPtrReg · r) (DstOperand.memoryPointer.inj h)⟩
  all_goals cases h

/-- Settles O51: a fault changes no byte, a commit only those at its location, and only two rows have one in memory. -/
theorem memoryChangesOnlyByMovStores : Obligations.MemoryChangesOnlyByMovStores := by
  intro i s t b hw h hne
  rcases exec_cases h with ⟨k, rfl, -⟩ | ⟨loc, v, out, hd, -, -, hc⟩
  · exact absurd rfl hne
  · obtain ⟨a, rfl, hb⟩ := commit_byteAt_cases hc hw hne
    refine ⟨a, hd, hb, ?_⟩
    rcases resolveDst_mem_cases hd with hmem | ⟨p, hptr, ha⟩
    · exact .inl (Instr.eq_movMemReg_of_dst hmem)
    · obtain ⟨r, hi⟩ := Instr.eq_movPtrReg_of_dst hptr
      exact .inr ⟨p, r, hi, ha⟩

/-! ## The encoder against the decoder's formats -/

theorem encode_length (i : Instr) : (encode i).length = i.length := by cases i <;> rfl

/-- The opcode of an instruction selects a format of its length, which reads its operand bytes back, whatever follows them
(30_encoding.md R50, R56). -/
theorem encode_shape (i : Instr) (rest : List Byte) :
    ∃ op bs shape, encode i = op :: bs ∧ shapeOf op = some shape ∧ shape.length = i.length ∧
      shape.read op (bs ++ rest) = .ok (i, rest) := by
  cases i
  all_goals refine ⟨_, _, _, rfl, rfl, rfl, ?_⟩
  all_goals simp [Shape.read, wordBytes]

/-- Scanning rows by their opcode finds none exactly when no row has it: the decoder and the opcode table scan alike. -/
theorem find_row_eq_none_iff {α : Type} {rows : List (Byte × α)} {op : Byte} :
    (rows.find? (fun r => r.1 == op)).map (·.2) = none ↔ op ∉ rows.map (·.1) := by
  simp only [Option.map_eq_none_iff, List.find?_eq_none, beq_iff_eq, List.mem_map, not_exists, not_and]

/-- The decoder and the opcode table register the same opcodes (30_encoding.md R62, R63). -/
theorem shapeOf_eq_none_iff_lookup {op : Byte} : shapeOf op = none ↔ defaultOpTab.lookup op = none := by
  have same_opcodes : decodeTable.map (·.1) = defaultOpTab.map (·.1) := rfl
  rw [shapeOf, OpTab.lookup, find_row_eq_none_iff, find_row_eq_none_iff, same_opcodes]

/-! ## The fetch, from the bytes at PC -/

theorem Memory.getElem_readBytes (m : Memory) (a n k : Nat) (hk : k < (m.readBytes a n).length) :
    (m.readBytes a n)[k] = m.read (a + k) := by
  induction n generalizing a k with
  | zero => cases hk
  | succ n ih =>
    cases k with
    | zero => rfl
    | succ k =>
      simp only [Memory.readBytes, List.getElem_cons_succ, ih]
      congr 1
      omega

/-- Bytes that stand in memory one after the other are the bytes read there. -/
theorem Memory.readBytes_eq {m : Memory} {a : Nat} {bs : List Byte}
    (h : ∀ k, (hk : k < bs.length) → bs[k] = m.read (a + k)) : m.readBytes a bs.length = bs :=
  List.ext_getElem (m.readBytes_length a _) fun k hk hk' => (m.getElem_readBytes a _ k hk).trans (h k hk').symm

/-- An instruction that fits is fetched where its encoding stands (40_execution_cycle.md R82). -/
theorem fetch_of_bytes {s : State} {i : Instr} (hfit : s.pc.toNat + i.length ≤ 65536)
    (h : ∀ k, (hk : k < (encode i).length) → (encode i)[k] = s.byteAt (s.pc.toNat + k)) : fetch s = .ok i := by
  obtain ⟨op, bs, shape, henc, hshape, hlen, hread⟩ := encode_shape i []
  have hop : s.mem.read s.pc.toNat = op := by simpa [henc, State.byteAt] using (h 0 (by simp [henc])).symm
  have hbytes : s.mem.readBytes s.pc.toNat shape.length = op :: bs := by
    rw [hlen, ← encode_length, ← henc]
    exact Memory.readBytes_eq h
  have hfits : fitsAt s shape.length = true := decide_eq_true (by omega)
  rw [List.append_nil] at hread
  simp [fetch, memRead1_ok s.pc_le, hop, bind, Except.bind, hshape, hfits, hbytes, decode, hread]

/-- An opcode that is not registered faults before any operand byte is read (40_execution_cycle.md R82). -/
theorem fetch_of_unregistered {s : State} (h : defaultOpTab.lookup (s.byteAt s.pc.toNat) = none) :
    fetch s = .error .unregisteredOpcode := by
  have hshape : shapeOf (s.mem.read s.pc.toNat) = none := shapeOf_eq_none_iff_lookup.mpr h
  simp [fetch, memRead1_ok s.pc_le, bind, Except.bind, hshape]

theorem step_of_fetch_ok {s : State} {i : Instr} (hr : s.running) (h : fetch s = .ok i) : step s = exec i s := by
  simp [step, show s.flags.halt = false from hr, h]

theorem step_of_fetch_error {s : State} {k : FaultKind} (hr : s.running) (h : fetch s = .error k) :
    step s = .next (s.raiseFault k) := by
  simp [step, show s.flags.halt = false from hr, h]

/-! ## The storing forms of mov -/

theorem storeLoc_of_ne {a : Word} (h : a ≠ 0xFFFF) : storeLoc a = .ok (.mem a) := if_neg h

theorem succ_le_of_ne_top {a : Word} (h : a ≠ 0xFFFF) : a.toNat + 1 ≤ 0xFFFF := by
  have : a.toNat ≠ 0xFFFF := fun e => h (BitVec.eq_of_toNat_eq e)
  omega

/-- A destination through a pointer cell is the address in the cell (40_execution_cycle.md R84). -/
theorem resolveDst_memoryPointer {s : State} {p a : Word} (hp : p ≠ 0xFFFF) (hcell : s.wordAt p.toNat = a.toNat)
    (ha : a ≠ 0xFFFF) : resolveDst s (.memoryPointer p) = .ok (.mem a) := by
  obtain ⟨w, hr, hw⟩ := memRead2_in_range s (succ_le_of_ne_top hp)
  obtain rfl : w = a := BitVec.eq_of_toNat_eq (hw.trans hcell)
  simp [resolveDst, hr, bind, Except.bind, storeLoc_of_ne ha]

/-- A `mov` from a register to memory stores the register's word and advances (44_mov.md R130). -/
theorem exec_mov_store {s u : State} {i : Instr} {a : Word} {r : Fin 10} (hm : i.form.mnemonic = .mov)
    (hsrc : i.form.src = .register (indexByte r)) (hdst : resolveDst s i.form.dst = .ok (.mem a))
    (hfit : fitsAt s i.length = true) (hu : memWrite2 s a.toNat (s.reg r) = .ok u) :
    exec i s = .next (u.setPc (trunc16 (s.pc.toNat + i.length))) := by
  have hread : resolveSrc s i.form.src = .ok (s.reg r) := by
    simp [hsrc, resolveSrc, regIndex_indexByte, Except.map]
  refine exec_of_parts (out := { HandlerOut.idle s with dst := s.reg r }) hfit hdst hread (by rw [hm]; rfl) ?_
  exact congrArg (Except.map fun w => State.setPc w _) hu

/-- Both storing forms of `mov` are four bytes long and store `R[r]` at `a` (44_mov.md R135, R136). -/
theorem exec_storing_mov {s u : State} {store : Instr} {a : Word} {r : Fin 10} (hfit : ¬ PastTop s 4) (ha : a ≠ 0xFFFF)
    (hstore : store = .movMemReg a (indexByte r) ∨
      ∃ p : Word, store = .movPtrReg p (indexByte r) ∧ p ≠ 0xFFFF ∧ s.wordAt p.toNat = a.toNat)
    (hu : memWrite2 s a.toNat (s.reg r) = .ok u) :
    exec store s = .next (u.setPc (trunc16 (s.pc.toNat + 4))) := by
  have hfits : fitsAt s 4 = true := decide_eq_true (Nat.not_lt.mp hfit)
  rcases hstore with rfl | ⟨p, rfl, hp, hcell⟩
  · exact exec_mov_store rfl rfl (storeLoc_of_ne ha) hfits hu
  · exact exec_mov_store rfl rfl (resolveDst_memoryPointer hp hcell ha) hfits hu

/-- Settles O37: the state after the store has the stored bytes and the advanced PC, and the fetch reads nothing else. -/
theorem storeIsSeenByTheNextFetch : Obligations.StoreIsSeenByTheNextFetch := by
  intro s store a r hr hw hfit ha hstore
  obtain ⟨u, hu⟩ := memWrite2_in_range s (s.reg r) (succ_le_of_ne_top ha)
  obtain ⟨-, -, hflags, -⟩ := memWrite2_frame hu
  refine ⟨_, exec_storing_mov hfit ha hstore hu, ?_⟩
  generalize ht : u.setPc (trunc16 (s.pc.toNat + 4)) = t
  have hpc : t.pc.toNat = (s.pc.toNat + 4) % 65536 := ht ▸ trunc16_toNat (s.pc.toNat + 4)
  have hbyte (b : Nat) : t.byteAt b = s.byteAfterStore a.toNat (s.reg r) b := ht ▸ memWrite2_byteAt hu hw b
  have hrun : t.running := ht ▸ (congrArg Flags.halt hflags).trans hr
  rw [← hpc]
  simp only [← hbyte]
  exact ⟨fun i hi hbytes => step_of_fetch_ok hrun (fetch_of_bytes hi hbytes),
    fun hop => step_of_fetch_error hrun (fetch_of_unregistered hop)⟩

end Sys2Proof.Machine

/-! Encoding family (30_encoding.md): the decoder and the encoder are inverse, what an opcode table looks up, builds and
refuses, and the opcodes of the default table. First what each row of the decoder's table makes of its operand bytes. -/

namespace Sys2Proof

open Sys2Proof.Machine

/-! ## The decoder, row by row -/

theorem decode_of_shape {op : Byte} {shape : Shape} (h : shapeOf op = some shape) (bs : List Byte) :
    decode (op :: bs) = shape.read op bs := by
  simp [decode, h]

/-- A decoded instruction was read in the format that its first byte selects. -/
theorem decode_ok {bytes rest : List Byte} {i : Instr} (h : decode bytes = .ok (i, rest)) :
    ∃ op bs shape, bytes = op :: bs ∧ shapeOf op = some shape ∧ shape.read op bs = .ok (i, rest) := by
  cases bytes with
  | nil => cases h
  | cons op bs =>
    cases hs : shapeOf op with
    | none => simp [decode, hs] at h
    | some shape => exact ⟨op, bs, shape, rfl, hs, (decode_of_shape hs bs).symm.trans h⟩

/-- The instructions of a format are encoded as `op` and the operand bytes of that format, destination first (30_encoding.md
R50, R56). -/
def Shape.EncodedBy (op : Byte) : Shape → Prop
  | .nn i => encode i = [op]
  | .nr f => ∀ s, encode (f s) = [op, s]
  | .ni f => ∀ v, encode (f v) = op :: wordBytes v
  | .rr f => ∀ d s, encode (f d s) = [op, d, s]
  | .ri f | .rm f | .rp f => ∀ d v, encode (f d v) = op :: d :: wordBytes v
  | .mr f | .pr f => ∀ v s, encode (f v s) = op :: (wordBytes v ++ [s])

/-- Every row of the decoder's table is the encoder's. -/
theorem decodeTable_encodedBy : ∀ r ∈ decodeTable, r.2.EncodedBy r.1 := by
  simp [decodeTable, Shape.EncodedBy, encode]

theorem shapeOf_encodedBy {op : Byte} {shape : Shape} (h : shapeOf op = some shape) : shape.EncodedBy op := by
  obtain ⟨⟨op', shape'⟩, hfind, rfl⟩ := Option.map_eq_some_iff.mp h
  obtain rfl : op' = op := by simpa using List.find?_some hfind
  exact decodeTable_encodedBy _ (List.mem_of_find?_eq_some hfind)

@[simp] theorem wordBytes_beWord (h l : Byte) : wordBytes (beWord h l) = [h, l] := by
  simp [wordBytes]

/-- A format drops none of the bytes it reads: encoding the instruction it makes writes them again. -/
theorem Shape.bytes_of_read {op : Byte} {shape : Shape} {bs rest : List Byte} {i : Instr} (he : shape.EncodedBy op)
    (h : shape.read op bs = .ok (i, rest)) : op :: bs = encode i ++ rest := by
  unfold Shape.read at h
  split at h
  case h_10 => cases h -- too few bytes: no instruction is read
  all_goals
    obtain ⟨rfl, rfl⟩ := Prod.mk.inj (Except.ok.inj h)
    simp only [Shape.EncodedBy] at he
    simp [he]

/-- Settles O1: the first byte selects a format, which reads the operands back. -/
theorem decodeOfEncodeIsIdentity : Obligations.DecodeOfEncodeIsIdentity := by
  intro i rest
  obtain ⟨op, bs, shape, henc, hshape, -, hread⟩ := encode_shape i rest
  rw [henc, List.cons_append, decode_of_shape hshape, hread]

/-- Settles O2: the format that read the bytes is the one the encoder writes. -/
theorem decodedBytesAreTheEncoding : Obligations.DecodedBytesAreTheEncoding := by
  intro bytes i rest h
  obtain ⟨op, bs, shape, rfl, hshape, hread⟩ := decode_ok h
  exact Shape.bytes_of_read (shapeOf_encodedBy hshape) hread

/-- Settles O3: the decoder runs on each of the nine. -/
theorem writtenEncodingsDecode : Obligations.WrittenEncodingsDecode :=
  ⟨rfl, rfl, rfl, rfl, rfl, rfl, rfl, rfl, rfl⟩

/-! ## Lengths -/

theorem ilen_bounds (d : DstMode) (m : Mode) : 1 ≤ ilen d m ∧ ilen d m ≤ 5 := by
  have hd : dlen d ≤ 2 := by cases d <;> decide
  have hm : slen m ≤ 2 := by cases m <;> decide
  unfold ilen
  omega

/-- The slot of an encoding's first byte holds the instruction's descriptor (30_encoding.md R62). -/
theorem lookup_of_encode {i : Instr} {op : Byte} {operands : List Byte} (h : encode i = op :: operands) :
    defaultOpTab.lookup op = some i.descriptor := by
  cases i
  all_goals
    obtain ⟨rfl, -⟩ := List.cons.inj h
    rfl

/-- Settles O4: the contributions by definition, and the length of an encoding through its descriptor. -/
theorem lengthFollowsFromModes : Obligations.LengthFollowsFromModes :=
  ⟨⟨rfl, rfl, rfl, rfl⟩, ⟨rfl, rfl, rfl, rfl, rfl⟩, fun _ _ => rfl, ilen_bounds,
    fun i _ _ h => ⟨i.descriptor, lookup_of_encode h, encode_length i⟩⟩

/-! ## Building a table -/

theorem RawDescriptor.check_succeeds_iff {raw : RawDescriptor} :
    (∃ d, raw.check = some d) ↔ raw.dstMode ≠ .immediate := by
  obtain ⟨m, src, dst⟩ := raw
  cases dst <;> simp [RawDescriptor.check]

/-- A slot is empty exactly when no row has its opcode. -/
theorem OpTab.lookup_eq_none_iff {T : OpTab} {op : Byte} : T.lookup op = none ↔ op ∉ T.map (·.1) :=
  find_row_eq_none_iff

@[simp] theorem OpTab.lookup_cons_self (op : Byte) (d : Descriptor) (T : OpTab) :
    OpTab.lookup ((op, d) :: T) op = some d := by
  simp [OpTab.lookup]

theorem OpTab.lookup_cons_of_ne {op op' : Byte} (d : Descriptor) (T : OpTab) (h : op ≠ op') :
    OpTab.lookup ((op, d) :: T) op' = OpTab.lookup T op' := by
  simp [OpTab.lookup, h]

/-- Everything `build` does with a row: it goes on the front of the table of the rows below, if its modes pass the check and
its slot is still empty. -/
theorem OpTab.build_cons_eq_some_iff {op : Byte} {raw : RawDescriptor} {rows : List (Byte × RawDescriptor)} {T : OpTab} :
    OpTab.build ((op, raw) :: rows) = some T ↔
      ∃ d T', raw.check = some d ∧ OpTab.build rows = some T' ∧ OpTab.lookup T' op = none ∧ T = (op, d) :: T' := by
  cases hd : raw.check with
  | none => simp [OpTab.build, hd]
  | some d =>
    cases hT : OpTab.build rows with
    | none => simp [OpTab.build, hd, hT]
    | some T' => simp [OpTab.build, hd, hT, eq_comm (a := T)]

/-- The table built has the opcodes of its rows, in their order. -/
theorem OpTab.build_opcodes {rows : List (Byte × RawDescriptor)} {T : OpTab} (h : OpTab.build rows = some T) :
    T.map (·.1) = rows.map (·.1) := by
  induction rows generalizing T with
  | nil => obtain rfl := Option.some.inj h; rfl
  | cons r rows ih =>
    obtain ⟨d, T', -, hT', -, rfl⟩ := OpTab.build_cons_eq_some_iff.mp h
    simp [ih hT']

theorem OpTab.lookup_build_eq_none_iff {rows : List (Byte × RawDescriptor)} {T : OpTab} {op : Byte}
    (h : OpTab.build rows = some T) : OpTab.lookup T op = none ↔ op ∉ rows.map (·.1) := by
  rw [OpTab.lookup_eq_none_iff, OpTab.build_opcodes h]

/-- `build` succeeds exactly on distinct opcodes with no immediate destination (30_encoding.md R57; U8, U9). -/
theorem OpTab.build_succeeds_iff {rows : List (Byte × RawDescriptor)} :
    (∃ T, OpTab.build rows = some T) ↔ (rows.map (·.1)).Nodup ∧ ∀ r ∈ rows, r.2.dstMode ≠ .immediate := by
  induction rows with
  | nil => simp [OpTab.build]
  | cons r rows ih =>
    obtain ⟨op, raw⟩ := r
    simp only [List.map_cons, List.nodup_cons, List.forall_mem_cons]
    constructor
    · rintro ⟨T, hT⟩
      obtain ⟨d, T', hd, hT', hfree, -⟩ := OpTab.build_cons_eq_some_iff.mp hT
      obtain ⟨hnodup, hmodes⟩ := ih.mp ⟨T', hT'⟩
      exact ⟨⟨(OpTab.lookup_build_eq_none_iff hT').mp hfree, hnodup⟩,
        RawDescriptor.check_succeeds_iff.mp ⟨d, hd⟩, hmodes⟩
    · rintro ⟨⟨hnew, hnodup⟩, hmode, hmodes⟩
      obtain ⟨d, hd⟩ := RawDescriptor.check_succeeds_iff.mpr hmode
      obtain ⟨T', hT'⟩ := ih.mpr ⟨hnodup, hmodes⟩
      exact ⟨_, OpTab.build_cons_eq_some_iff.mpr
        ⟨d, T', hd, hT', (OpTab.lookup_build_eq_none_iff hT').mpr hnew, rfl⟩⟩

/-- In the table built, every row's slot holds the row's checked descriptor (30_encoding.md R70, R71). -/
theorem OpTab.lookup_build_of_mem {rows : List (Byte × RawDescriptor)} {T : OpTab} (h : OpTab.build rows = some T) :
    ∀ r ∈ rows, OpTab.lookup T r.1 = r.2.check := by
  induction rows generalizing T with
  | nil => simp
  | cons r rows ih =>
    obtain ⟨d, T', hd, hT', hfree, rfl⟩ := OpTab.build_cons_eq_some_iff.mp h
    refine List.forall_mem_cons.mpr ⟨by simp [hd], fun r' hr' => ?_⟩
    have hne : r.1 ≠ r'.1 := fun e =>
      (OpTab.lookup_build_eq_none_iff hT').mp hfree (List.mem_map.mpr ⟨r', hr', e.symm⟩)
    rw [OpTab.lookup_cons_of_ne d T' hne, ih hT' r' hr']

/-- Settles O5, by induction on the rows: the table built has exactly their opcodes. -/
theorem tableBuildRefusesBadRows : Obligations.TableBuildRefusesBadRows :=
  fun _ => ⟨OpTab.build_succeeds_iff, fun _ hT =>
    ⟨OpTab.lookup_build_of_mem hT, fun _ hop => (OpTab.lookup_build_eq_none_iff hT).mpr hop⟩⟩

/-! ## The assembler's scan -/

/-- A scan of all slots answers the lowest one that passes. -/
theorem find_allOpcodes_eq_some_iff {p : Byte → Bool} {op : Byte} :
    allOpcodes.find? p = some op ↔ p op = true ∧ ∀ op' : Byte, op'.toNat < op.toNat → p op' = false := by
  have hat (k : Nat) (hk : k < allOpcodes.length) : allOpcodes[k] = BitVec.ofNat 8 k := by simp [allOpcodes]
  have hlen : allOpcodes.length = 256 := by simp [allOpcodes]
  rw [List.find?_eq_some_iff_getElem]
  refine and_congr_right fun _ => ⟨?_, fun hlow => ?_⟩
  · rintro ⟨k, hk, rfl, hlow⟩ op' hop'
    have hlt : op'.toNat < k := by
      rw [hat, BitVec.toNat_ofNat] at hop'
      omega
    simpa [hat] using hlow op'.toNat hlt
  · refine ⟨op.toNat, hlen ▸ op.isLt, by simp [hat], fun j hj => ?_⟩
    have hlt : (BitVec.ofNat 8 j).toNat < op.toNat := by
      rw [BitVec.toNat_ofNat]
      omega
    simp [hat, hlow _ hlt]

/-- Settles O6: the scan ascends over every slot. -/
theorem assemblerLookupFindsExactMatches : Obligations.AssemblerLookupFindsExactMatches := by
  intro T m src dst
  constructor
  · intro op
    simp [OpTab.lookupByMnemonic, find_allOpcodes_eq_some_iff]
  · simp [OpTab.lookupByMnemonic, List.find?_eq_none, mem_allOpcodes]

/-! ## The opcodes of the default table -/

/-- The registered opcodes, in five runs (30_encoding.md R63). -/
theorem defaultOpTab_opcodes : (defaultOpTab.map (·.1)).map BitVec.toNat =
    List.range' 0x00 6 ++ List.range' 0x07 2 ++ List.range' 0x10 6 ++ List.range' 0x20 8 ++ List.range' 0xE0 18 := rfl

/-- The empty slots of the default table are the gaps between those runs. -/
theorem defaultOpTab_lookup_eq_none_iff (op : Byte) : defaultOpTab.lookup op = none ↔
    (op.toNat = 0x06 ∨ (0x09 ≤ op.toNat ∧ op.toNat ≤ 0x0F) ∨ (0x16 ≤ op.toNat ∧ op.toNat ≤ 0x1F) ∨
      (0x28 ≤ op.toNat ∧ op.toNat ≤ 0xDF) ∨ (0xF2 ≤ op.toNat ∧ op.toNat ≤ 0xFF)) := by
  have hbyte : op.toNat < 256 := op.isLt
  rw [OpTab.lookup_eq_none_iff, ← List.mem_map_of_injective BitVec.toNat_injective, defaultOpTab_opcodes]
  simp only [List.mem_append, List.mem_range'_1]
  omega

/-- 216 of the 256 slots are empty (30_encoding.md R63). -/
theorem defaultOpTab_empty_slots_length :
    ((List.range 256).filter (fun n => (defaultOpTab.lookup (BitVec.ofNat 8 n)).isNone)).length = 216 := by
  rfl

/-- Settles O7: the fetch of an opcode in a gap faults before any operand byte is read. -/
theorem unregisteredOpcodesFault : Obligations.UnregisteredOpcodesFault :=
  ⟨defaultOpTab_lookup_eq_none_iff, defaultOpTab_empty_slots_length,
    fun _ hr h => step_of_fetch_error hr (fetch_of_unregistered h)⟩

end Sys2Proof

/-! Execution-cycle family (40_execution_cycle.md): operand resolution at an address and on an operand whose bytes are read
agree, so the step is the spec's cycle over the default table; what each addressing mode resolves to; writeback; the Halted
core. First the bytes of an encoding, operand by operand, and where they stand in memory. -/

namespace Sys2Proof

/-! ## The operands of an encoding -/

/-- A destination operand as its bytes in address order (30_encoding.md R50, R54). -/
def DstOperand.bytes : DstOperand → List Byte
  | .none => []
  | .register i => [i]
  | .memory a => wordBytes a
  | .memoryPointer p => wordBytes p

/-- A source operand as its bytes in address order (30_encoding.md R50, R54). -/
def SrcOperand.bytes : SrcOperand → List Byte
  | .none => []
  | .register i => [i]
  | .immediate v => wordBytes v
  | .memory a => wordBytes a
  | .memoryPointer p => wordBytes p

theorem DstOperand.bytes_length (d : DstOperand) : d.bytes.length = dlen d.mode := by
  cases d <;> rfl

theorem SrcOperand.bytes_length (o : SrcOperand) : o.bytes.length = slen o.mode := by
  cases o <;> rfl

/-- An encoding is an opcode, the destination operand and the source operand (30_encoding.md R50). -/
theorem encode_eq_operands (i : Instr) : ∃ op, encode i = op :: (i.form.dst.bytes ++ i.form.src.bytes) := by
  cases i <;> exact ⟨_, rfl⟩

/-- A format reads an instruction from exactly as many bytes as it has, and leaves none (30_encoding.md R56). -/
theorem Shape.read_of_length {op : Byte} {shape : Shape} {bs : List Byte} (h : bs.length + 1 = shape.length) :
    ∃ i, shape.read op bs = .ok (i, []) := by
  replace h : bs.length = shape.length - 1 := Nat.eq_sub_of_add_eq h
  cases shape with
  | nn i =>
    obtain rfl := List.length_eq_zero_iff.mp h
    exact ⟨i, rfl⟩
  | nr f =>
    obtain ⟨x, rfl⟩ := List.length_eq_one_iff.mp h
    exact ⟨_, rfl⟩
  | ni f | rr f =>
    obtain ⟨x, y, rfl⟩ := List.length_eq_two.mp h
    exact ⟨_, rfl⟩
  | ri f | rm f | rp f | mr f | pr f =>
    obtain ⟨x, y, z, rfl⟩ := List.length_eq_three.mp h
    exact ⟨_, rfl⟩

end Sys2Proof

namespace Sys2Proof.Machine

open Sys2Proof

/-! ## An encoding in memory -/

theorem Memory.readBytes_add (m : Memory) (a j k : Nat) :
    m.readBytes a (j + k) = m.readBytes a j ++ m.readBytes (a + j) k := by
  induction j generalizing a with
  | zero => simp [Memory.readBytes]
  | succ j ih =>
    rw [Nat.succ_add, Memory.readBytes, Memory.readBytes, ih, Nat.add_right_comm]
    rfl

/-- Where two runs of bytes are read one after the other, each stands at its place. -/
theorem Memory.readBytes_append {m : Memory} {a n : Nat} {bs cs : List Byte} (h : m.readBytes a n = bs ++ cs) :
    m.readBytes a bs.length = bs ∧ m.readBytes (a + bs.length) cs.length = cs := by
  have hn : n = bs.length + cs.length := by rw [← m.readBytes_length a n, h, List.length_append]
  rw [hn, Memory.readBytes_add] at h
  exact List.append_inj h (m.readBytes_length a _)

/-- Where an instruction's encoding stands, its two operands stand behind the opcode byte. -/
theorem operands_stand {m : Memory} {a : Nat} {i : Instr} (h : m.readBytes a i.length = encode i) :
    m.readBytes (a + 1) (dlen i.form.dst.mode) = i.form.dst.bytes ∧
    m.readBytes (a + 1 + dlen i.form.dst.mode) (slen i.form.src.mode) = i.form.src.bytes := by
  obtain ⟨op, henc⟩ := encode_eq_operands i
  rw [henc, ← List.singleton_append] at h
  have hoperands := (Memory.readBytes_append h).2
  rw [← DstOperand.bytes_length, ← SrcOperand.bytes_length]
  exact Memory.readBytes_append hoperands

/-! ## Operands resolved where their bytes stand -/

theorem memRead1_of_readBytes {s : State} {a : Nat} {b : Byte} (ha : a ≤ 0xFFFF) (h : s.mem.readBytes a 1 = [b]) :
    memRead1 s a = .ok b :=
  (memRead1_ok ha).trans (congrArg _ (List.cons.inj h).1)

theorem memRead2_of_readBytes {s : State} {a : Nat} {v : Word} (ha : a + 1 ≤ 0xFFFF)
    (h : s.mem.readBytes a 2 = wordBytes v) : memRead2 s a = .ok v := by
  obtain ⟨hhi, hrest⟩ := List.cons.inj h
  obtain ⟨hlo, -⟩ := List.cons.inj hrest
  rw [memRead2_eq_beWord s ha, State.byteAt, State.byteAt, hhi, hlo, beWord_hiByte_loByte]

/-- Resolving a destination at its address is resolving the operand whose bytes stand there (40_execution_cycle.md R84). -/
theorem resolveDstAt_of_bytes {s : State} {d : DstOperand} {a : Nat} (ha : a + dlen d.mode ≤ 65536)
    (h : s.mem.readBytes a (dlen d.mode) = d.bytes) : resolveDstAt s d.mode a = resolveDst s d := by
  cases d with
  | none => rfl
  | register b => exact congrArg (· >>= _) (memRead1_of_readBytes (Nat.le_of_succ_le_succ ha) h)
  | memory w | memoryPointer w => exact congrArg (· >>= _) (memRead2_of_readBytes (Nat.le_of_succ_le_succ ha) h)

/-- Resolving a source at its address is resolving the operand whose bytes stand there (40_execution_cycle.md R85). -/
theorem resolveSrcAt_of_bytes {s : State} {o : SrcOperand} {a : Nat} (ha : a + slen o.mode ≤ 65536)
    (h : s.mem.readBytes a (slen o.mode) = o.bytes) : resolveSrcAt s o.mode a = resolveSrc s o := by
  cases o with
  | none => rfl
  | register b => exact congrArg (· >>= _) (memRead1_of_readBytes (Nat.le_of_succ_le_succ ha) h)
  | immediate v => exact memRead2_of_readBytes (Nat.le_of_succ_le_succ ha) h
  | memory w | memoryPointer w => exact congrArg (· >>= _) (memRead2_of_readBytes (Nat.le_of_succ_le_succ ha) h)

/-! ## The fetch of a registered opcode -/

/-- Whatever bytes follow a registered opcode, an instruction's encoding stands there: every byte is an operand byte
(30_encoding.md R55, R71). -/
theorem exists_instr_of_shape {m : Memory} {a : Nat} {shape : Shape} (h : shapeOf (m.read a) = some shape) :
    ∃ i, i.length = shape.length ∧ m.readBytes a i.length = encode i ∧
      defaultOpTab.lookup (m.read a) = some i.descriptor := by
  obtain ⟨n, hn⟩ : ∃ n, shape.length = n + 1 := by cases shape <;> exact ⟨_, rfl⟩
  obtain ⟨i, hi⟩ := Shape.read_of_length (op := m.read a) (shape := shape) (bs := m.readBytes (a + 1) n)
    (by rw [m.readBytes_length, hn])
  have henc : m.read a :: m.readBytes (a + 1) n = encode i := by
    rw [Shape.bytes_of_read (shapeOf_encodedBy h) hi, List.append_nil]
  have hlen : i.length = n + 1 := by rw [← encode_length, ← henc, List.length_cons, m.readBytes_length]
  exact ⟨i, hlen.trans hn.symm, hlen ▸ henc, lookup_of_encode henc.symm⟩

/-- A registered opcode whose format does not fit faults before any operand byte is read (40_execution_cycle.md R83). -/
theorem fetch_of_not_fits {s : State} {shape : Shape} (h : shapeOf (s.mem.read s.pc.toNat) = some shape)
    (hf : fitsAt s shape.length = false) : fetch s = .error .addressRange := by
  simp [fetch, memRead1_ok s.pc_le, bind, Except.bind, h, hf]

/-- An instruction that fits is fetched when the bytes read from PC on begin with its encoding. -/
theorem fetch_of_readBytes {s : State} {i : Instr} {n : Nat} {rest : List Byte}
    (h : s.mem.readBytes s.pc.toNat n = encode i ++ rest) (hfit : ¬ PastTop s i.length) : fetch s = .ok i := by
  refine fetch_of_bytes (by omega) fun k hk => ?_
  have hencode := (Memory.readBytes_append h).1
  exact (List.getElem_of_eq hencode.symm hk).trans (s.mem.getElem_readBytes _ _ k _)

/-- Where an encoding stands at PC, the step of a Running core is its instruction, whether it fits or not: the check of its
length is both in the fetch and in the meaning (40_execution_cycle.md R83). -/
theorem step_of_encoding {s : State} {i : Instr} {shape : Shape} (hr : s.running)
    (hshape : shapeOf (s.mem.read s.pc.toNat) = some shape) (hlen : i.length = shape.length)
    (hbytes : s.mem.readBytes s.pc.toNat i.length = encode i) : step s = exec i s := by
  by_cases hf : fitsAt s i.length = true
  · exact step_of_fetch_ok hr (fetch_of_readBytes (rest := []) (by simpa using hbytes)
      (Nat.not_lt.mpr (of_decide_eq_true hf)))
  · have hf := Bool.eq_false_iff.mpr hf
    rw [step_of_fetch_error hr (fetch_of_not_fits hshape (hlen ▸ hf)), exec_of_not_fits hf]

/-- Settles O11: the bytes decoded are an encoding, which is what the fetch reads. -/
theorem stepRunsTheDecodedInstruction : Obligations.StepRunsTheDecodedInstruction :=
  fun _ _ _ hr hdec hfit => step_of_fetch_ok hr (fetch_of_readBytes (decodedBytesAreTheEncoding _ _ _ hdec) hfit)

/-! ## The spec's cycle -/

/-- An empty slot is a fault, for any table (40_execution_cycle.md R82). -/
theorem cycleAttempt_of_unregistered {T : OpTab} {s : State} (h : T.lookup (s.byteAt s.pc.toNat) = none) :
    cycleAttempt T s = .error .unregisteredOpcode := by
  have hop : T.lookup (s.mem.read s.pc.toNat) = none := h
  simp [cycleAttempt, memRead1_ok s.pc_le, bind, Except.bind, hop]

/-- Where an encoding stands at PC and the table has its descriptor, the cycle attempts that instruction, for any table. -/
theorem cycleAttempt_of_encoding {T : OpTab} {s : State} {i : Instr}
    (hop : T.lookup (s.byteAt s.pc.toNat) = some i.descriptor) (hbytes : s.mem.readBytes s.pc.toNat i.length = encode i) :
    cycleAttempt T s = attempt s i.form.dst i.form.src (handlerOf i.form.mnemonic) := by
  have hop' : T.lookup (s.mem.read s.pc.toNat) = some i.descriptor := hop
  have hcycle : cycleAttempt T s =
      if fitsAt s i.length then do
        let loc ← resolveDstAt s i.form.dst.mode (s.pc.toNat + 1)
        let v ← resolveSrcAt s i.form.src.mode (s.pc.toNat + 1 + dlen i.form.dst.mode)
        let out ← handlerOf i.form.mnemonic s v
        commit s i.length loc out
      else .error .addressRange := by
    simp only [cycleAttempt, memRead1_ok s.pc_le, hop', bind, Except.bind]
    rfl
  by_cases hf : fitsAt s i.length = true
  · have hfit : s.pc.toNat + 1 + dlen i.form.dst.mode + slen i.form.src.mode ≤ 65536 := by
      have := of_decide_eq_true hf
      unfold Instr.length ilen at this
      omega
    obtain ⟨hdst, hsrc⟩ := operands_stand hbytes
    rw [hcycle, resolveDstAt_of_bytes (by omega) hdst, resolveSrcAt_of_bytes hfit hsrc]
    rfl
  · rw [hcycle, if_neg hf]
    exact (if_neg hf).symm

theorem cycle_of_running {T : OpTab} {s : State} (hr : s.running) : cycle T s = settle s (cycleAttempt T s) := by
  simp [cycle, show s.flags.halt = false from hr]

/-- Settles O12: an empty slot faults in both; behind a registered opcode stands an encoding, which both run or both refuse. -/
theorem stepIsTheSpecCycle : Obligations.StepIsTheSpecCycle := by
  intro s
  by_cases hr : s.running
  · rw [cycle_of_running hr]
    cases hshape : shapeOf (s.mem.read s.pc.toNat) with
    | none =>
      have hop : defaultOpTab.lookup (s.byteAt s.pc.toNat) = none := shapeOf_eq_none_iff_lookup.mp hshape
      rw [step_of_fetch_error hr (fetch_of_unregistered hop), cycleAttempt_of_unregistered hop]
      rfl
    | some shape =>
      obtain ⟨i, hlen, hbytes, hop⟩ := exists_instr_of_shape hshape
      rw [step_of_encoding hr hshape hlen hbytes, cycleAttempt_of_encoding hop hbytes]
      exact exec_eq_instruction i s
  · have hh : s.flags.halt = true := by simpa using hr
    rw [step_halted hh, cycle, if_pos hh]

/-- Settles O13, by induction on the number of steps. -/
theorem haltedCoreNeverChanges : Obligations.HaltedCoreNeverChanges := by
  intro s n hh
  induction n with
  | zero => rfl
  | succ n ih =>
    have hstep : Sys2Proof.core.step s = .next s := step_halted hh
    simpa only [Host.Core.run, hstep] using ih

/-! ## What each addressing mode resolves to -/

/-- A resolution answers as its rows of the fault table say (60_exceptions.md R192): with the fault they name, or, where they
name none, with a good value. -/
def Answers {α : Type} (r : Except FaultKind α) (fault : Option FaultKind) (good : α → Prop) : Prop :=
  (∀ k, fault = some k → r = .error k) ∧ (fault = none → ∃ x, r = .ok x ∧ good x)

theorem answers_of_ok {α : Type} {r : Except FaultKind α} {good : α → Prop} {x : α} (hr : r = .ok x) (hx : good x) :
    Answers r none good :=
  ⟨nofun, fun _ => ⟨x, hr, hx⟩⟩

theorem answers_of_condition {α : Type} {r : Except FaultKind α} {good : α → Prop} {c : Prop} [Decidable c] {k : FaultKind}
    (h : (c ∧ r = .error k) ∨ (¬ c ∧ ∃ x, r = .ok x ∧ good x)) : Answers r (if c then some k else none) good := by
  rcases h with ⟨hc, hr⟩ | ⟨hc, hx⟩
  · rw [if_pos hc]
    exact ⟨fun _ hk => Option.some.inj hk ▸ hr, nofun⟩
  · rw [if_neg hc]
    exact ⟨nofun, fun _ => hx⟩

/-- Everything a read at an address held in a word can do. -/
theorem memRead2_word_cases (s : State) (a : Word) :
    (a.toNat = 0xFFFF ∧ memRead2 s a.toNat = .error .addressRange) ∨
    (a.toNat ≠ 0xFFFF ∧ ∃ v, memRead2 s a.toNat = .ok v ∧ v.toNat = s.wordAt a.toNat) := by
  have hlt := a.isLt
  by_cases h : a.toNat = 0xFFFF
  · exact .inl ⟨h, if_pos (by omega)⟩
  · exact .inr ⟨h, memRead2_in_range s (by omega)⟩

/-- Everything the check of a destination address can do. -/
theorem storeLoc_cases (a : Word) :
    (a.toNat = 0xFFFF ∧ storeLoc a = .error .addressRange) ∨
    (a.toNat ≠ 0xFFFF ∧ ∃ loc, storeLoc a = .ok loc ∧ ∃ b : Word, loc = .mem b ∧ b.toNat = a.toNat) := by
  by_cases h : a = 0xFFFF
  · exact .inl ⟨congrArg BitVec.toNat h, if_pos h⟩
  · exact .inr ⟨fun e => h (BitVec.eq_of_toNat_eq e), _, storeLoc_of_ne h, a, rfl, rfl⟩

/-- Everything a register operand's index byte can resolve to, as a location or as a value. -/
theorem regIndex_map_cases {α : Type} (f : Fin 10 → α) (b : Byte) :
    (9 < b.toNat ∧ (regIndex b).map f = .error .registerIndex) ∨
    (¬ 9 < b.toNat ∧ ∃ x, (regIndex b).map f = .ok x ∧ ∃ i, x = f i ∧ i.val = b.toNat) := by
  rcases regIndex_cases b with ⟨i, hib, hi⟩ | ⟨hgt, hi⟩
  · exact .inr ⟨by omega, f i, congrArg (Except.map f) hi, i, rfl, hib⟩
  · exact .inl ⟨hgt, congrArg (Except.map f) hi⟩

/-- Settles O16, mode by mode: each read is in range unless the word read before it is 0xFFFF. -/
theorem destinationResolution : Obligations.DestinationResolution := by
  intro s mode at_ hat
  cases mode with
  | none => exact answers_of_ok rfl (by simp)
  | register =>
    have hr : resolveDstAt s .register at_ = (regIndex (s.byteAt at_)).map Loc.reg :=
      congrArg (· >>= _) (memRead1_ok (Nat.le_of_succ_le_succ hat))
    refine answers_of_condition ?_
    simpa [hr] using regIndex_map_cases Loc.reg (s.byteAt at_)
  | memory =>
    obtain ⟨a, ha, haw⟩ := memRead2_in_range s (Nat.le_of_succ_le_succ hat)
    have hr : resolveDstAt s .memory at_ = storeLoc a := congrArg (· >>= _) ha
    refine answers_of_condition ?_
    simpa [hr, ← haw] using storeLoc_cases a
  | memoryPointer =>
    obtain ⟨p, hp, hpw⟩ := memRead2_in_range s (Nat.le_of_succ_le_succ hat)
    have hr : resolveDstAt s .memoryPointer at_ = memRead2 s p.toNat >>= storeLoc := congrArg (· >>= _) hp
    refine answers_of_condition ?_
    rw [hr, ← hpw]
    rcases memRead2_word_cases s p with ⟨htop, hcell⟩ | ⟨hne, a, hcell, haw⟩
    · exact .inl ⟨.inl htop, congrArg (· >>= _) hcell⟩
    · have hr' : memRead2 s p.toNat >>= storeLoc = storeLoc a := congrArg (· >>= _) hcell
      simpa [hr', ← haw, hne] using storeLoc_cases a

/-- Settles O17, mode by mode, as for the destination; the last read gives the value itself. -/
theorem sourceResolution : Obligations.SourceResolution := by
  intro s mode at_ hat
  cases mode with
  | none => exact answers_of_ok rfl (by simp)
  | register =>
    have hr : resolveSrcAt s .register at_ = (regIndex (s.byteAt at_)).map s.reg :=
      congrArg (· >>= _) (memRead1_ok (Nat.le_of_succ_le_succ hat))
    refine answers_of_condition ?_
    simpa [hr] using regIndex_map_cases s.reg (s.byteAt at_)
  | immediate =>
    obtain ⟨v, hv, hvw⟩ := memRead2_in_range s (Nat.le_of_succ_le_succ hat)
    exact answers_of_ok hv (by simpa using hvw)
  | memory =>
    obtain ⟨a, ha, haw⟩ := memRead2_in_range s (Nat.le_of_succ_le_succ hat)
    have hr : resolveSrcAt s .memory at_ = memRead2 s a.toNat := congrArg (· >>= _) ha
    refine answers_of_condition ?_
    simpa [hr, ← haw] using memRead2_word_cases s a
  | memoryPointer =>
    obtain ⟨p, hp, hpw⟩ := memRead2_in_range s (Nat.le_of_succ_le_succ hat)
    have hr : resolveSrcAt s .memoryPointer at_ = memRead2 s p.toNat >>= fun a => memRead2 s a.toNat :=
      congrArg (· >>= _) hp
    refine answers_of_condition ?_
    rw [hr, ← hpw]
    rcases memRead2_word_cases s p with ⟨htop, hcell⟩ | ⟨hne, a, hcell, haw⟩
    · exact .inl ⟨.inl htop, congrArg (· >>= _) hcell⟩
    · have hr' : (memRead2 s p.toNat >>= fun a => memRead2 s a.toNat) = memRead2 s a.toNat := congrArg (· >>= _) hcell
      simpa [hr', ← haw, hne] using memRead2_word_cases s a

/-! ## Writeback and the handlers without a result -/

/-- A computation of two parts that succeeds passes through a value of its first. -/
theorem ok_of_bind_ok {α β : Type} {r : Except FaultKind α} {f : α → Except FaultKind β} {y : β} (h : r >>= f = .ok y) :
    ∃ x, r = .ok x ∧ f x = .ok y := by
  cases r with
  | error k => cases h
  | ok x => exact ⟨x, rfl, h⟩

/-- A location resolved at an address is one resolved from an operand. -/
theorem resolveDstAt_ok {s : State} {mode : DstMode} {at_ : Nat} {loc : Loc} (h : resolveDstAt s mode at_ = .ok loc) :
    ∃ d, resolveDst s d = .ok loc := by
  cases mode with
  | none => exact ⟨.none, h⟩
  | register =>
    obtain ⟨b, -, hb⟩ := ok_of_bind_ok h
    exact ⟨.register b, hb⟩
  | memory =>
    obtain ⟨a, -, ha⟩ := ok_of_bind_ok h
    exact ⟨.memory a, ha⟩
  | memoryPointer =>
    obtain ⟨p, -, hp⟩ := ok_of_bind_ok h
    exact ⟨.memoryPointer p, hp⟩

/-- Settles O18: a register by its write, a location in memory because resolution never gives the last address. -/
theorem writebackDeliversTheValue : Obligations.WritebackDeliversTheValue := by
  refine ⟨fun s i v => ⟨s.setReg i v, rfl, State.reg_setReg_self s i v, fun j hj => State.reg_setReg_ne s i j v hj,
    fun _ => rfl, rfl, rfl, rfl, rfl⟩, ?_⟩
  intro s mode at_ a v hw hloc
  obtain ⟨d, hd⟩ := resolveDstAt_ok hloc
  obtain ⟨t, ht⟩ := memWrite2_in_range s v (resolveDst_mem hd)
  have hbyte := memWrite2_byteAt ht hw
  refine ⟨t, ht, ?_, fun b hb hb' => (hbyte b).trans (s.byteAfterStore_of_ne v hb hb'), memWrite2_frame ht⟩
  rw [State.wordAt, hbyte, hbyte, State.byteAfterStore_self, State.byteAfterStore_succ, ← beWord_toNat, beWord_hiByte_loByte]

/-- Settles O19, from what each family of handlers can leave. -/
theorem resultlessHandlersPassR0 : Obligations.ResultlessHandlersPassR0 :=
  fun _ _ _ _ hm h _ => handlerOf_resultless_dst h hm

end Sys2Proof.Machine

/-! System and I/O family (41_system_io.md): hlt, nop, stdout and stdin. First what an instruction without a destination operand
reaches when it falls through: writeback of what the handler left in `R[0]` changes nothing (40_execution_cycle.md R91). -/

namespace Sys2Proof.Machine

open Sys2Proof

/-! ## Falling through without a destination operand -/

theorem advanced_setPc (s u : State) (n : Nat) : Advanced n s (u.setPc (trunc16 (s.pc.toNat + n))) :=
  trunc16_toNat (s.pc.toNat + n)

/-- The flags and the record of the collaborators have no part in the registers after the direct write. -/
theorem applyR0_reg_setFlags_setPorts (s : State) (f : Flags) (p : Ports) (o : Option Word) (j : Fin 10) :
    (applyR0 ((s.setFlags f).setPorts p) o).reg j = (applyR0 s o).reg j := by
  cases o <;> rfl

/-- Writeback to `R[0]` of the value it holds after the direct write leaves the advance of PC as the commit's last effect
(40_execution_cycle.md R87, R88). -/
theorem commit_reg_zero {s : State} {len : Nat} {out : HandlerOut} (ht : out.target = none)
    (hdst : out.dst = (applyR0 s out.r0).reg 0) :
    commit s len (.reg 0) out = .ok
      ((applyR0 ((s.setFlags out.flags).setPorts out.ports) out.r0).setPc (trunc16 (s.pc.toNat + len))) := by
  have hkeep : out.dst = (applyR0 ((s.setFlags out.flags).setPorts out.ports) out.r0).reg 0 :=
    hdst.trans (applyR0_reg_setFlags_setPorts s _ _ _ 0).symm
  simp only [commit, ht, writeback, hkeep, State.setReg_reg_self, Except.map]

/-- An instruction without a destination operand that falls through: the handler's flags, ports and direct write, and PC
advanced by the length. -/
theorem exec_of_dst_none {i : Instr} {s : State} {v : Word} {out : HandlerOut} (hd : i.form.dst = .none)
    (hf : fitsAt s i.length = true) (hs : resolveSrc s i.form.src = .ok v) (hh : handlerOf i.form.mnemonic s v = .ok out)
    (ht : out.target = none) :
    exec i s = .next
      ((applyR0 ((s.setFlags out.flags).setPorts out.ports) out.r0).setPc (trunc16 (s.pc.toNat + i.length))) :=
  exec_of_parts hf (by rw [hd]; rfl) hs hh
    (commit_reg_zero ht (handlerOf_resultless_dst hh (Instr.resultless_of_dst_none hd)))

/-! ## The four instructions of one byte -/

/-- `nop` advances PC (41_system_io.md R101). -/
theorem exec_nop (s : State) : exec .nop s = .next (s.setPc (trunc16 (s.pc.toNat + 1))) :=
  (exec_of_dst_none (i := .nop) rfl (fitsAt_one s) rfl rfl rfl :)

/-- `stdout` hands the low byte of `R[0]` to the sink and advances PC (41_system_io.md R102). -/
theorem exec_stdout (s : State) :
    exec .stdout s = .next ((s.setPorts (s.ports.outByte (loByte (s.reg 0)))).setPc (trunc16 (s.pc.toNat + 1))) :=
  (exec_of_dst_none (i := .stdout) rfl (fitsAt_one s) rfl rfl rfl :)

/-- `stdin` makes one attempt, writes `R[0]`, DATA and ZERO from its answer, and advances PC (41_system_io.md R103). -/
theorem exec_stdin (s : State) :
    exec .stdin s = .next
      ((((s.setFlags (s.flags.input s.ports.nextInput)).setPorts s.ports.inByte).setReg 0
        (inputValue s.ports.nextInput)).setPc (trunc16 (s.pc.toNat + 1))) :=
  (exec_of_dst_none (i := .stdin) rfl (fitsAt_one s) rfl rfl rfl :)

/-- A byte read is zero-extended (41_system_io.md R103). -/
theorem inputValue_some_toNat (b : Byte) : (inputValue (some b)).toNat = b.toNat :=
  BitVec.toNat_setWidth_of_le (by decide)

/-- Settles O22: `SRC` of an instruction without operands is `R[0]`. -/
theorem stdoutSendsTheLowByte : Obligations.StdoutSendsTheLowByte :=
  ⟨rfl, fun s => ⟨_, exec_stdout s, ⟨loByte (s.reg 0), loByte_toNat _, rfl⟩, rfl, fun _ => rfl, advanced_setPc s _ 1,
    fun _ => rfl, rfl⟩⟩

/-- Settles O23, for each of the two answers an attempt can get. -/
theorem stdinMakesOneAttempt : Obligations.StdinMakesOneAttempt := by
  refine ⟨rfl, fun s => ⟨_, exec_stdin s, s.ports.nextInput, rfl, rfl, fun b hb => ?byte, fun hnone => ?none,
    fun j hj => State.reg_setReg_ne _ 0 j _ hj, advanced_setPc s _ 1, fun _ => rfl, rfl⟩⟩
  case byte =>
    rw [hb, State.setPc_reg, State.reg_setReg_self]
    exact ⟨inputValue_some_toNat b, rfl⟩
  case none =>
    rw [hnone, State.setPc_reg, State.reg_setReg_self]
    exact ⟨rfl, rfl⟩

/-- Settles O20: the state reached has HALT set, and a Halted core never changes. -/
theorem hltHaltsForGood : Obligations.HltHaltsForGood :=
  ⟨rfl, fun s => ⟨_, exec_hlt s, rfl, fun _ => rfl, advanced_setPc s _ 1, fun _ => rfl, ⟨rfl, rfl⟩,
    fun n => haltedCoreNeverChanges _ n rfl⟩⟩

/-- Settles O21. -/
theorem nopOnlyAdvances : Obligations.NopOnlyAdvances :=
  ⟨rfl, fun s => ⟨_, exec_nop s, rfl, fun _ => rfl, advanced_setPc s _ 1, fun _ => rfl, rfl, rfl⟩⟩

end Sys2Proof.Machine

/-! Interrupt family (42_int.md): `int` with an immediate and with a register. First the length check and the register source,
each for any instruction; then the handler's two outcomes, by whether the number is recognized. -/

namespace Sys2Proof.Machine

open Sys2Proof

/-! ## The length check and the register source -/

theorem fitsAt_of_not_pastTop {s : State} {n : Nat} (h : ¬ PastTop s n) : fitsAt s n = true :=
  decide_eq_true (Nat.not_lt.mp h)

/-- Every instruction checks its own length first (40_execution_cycle.md R83). -/
theorem faultsPastTop_length (i : Instr) : FaultsPastTop i i.length :=
  fun _ h => exec_of_not_fits (decide_eq_false (Nat.not_le.mpr h))

/-- A good index byte as a source is its register's word (40_execution_cycle.md R85). -/
theorem resolveSrc_indexByte (s : State) (r : Fin 10) : resolveSrc s (.register (indexByte r)) = .ok (s.reg r) :=
  congrArg (Except.map s.reg) (regIndex_indexByte r)

/-- Without a destination operand, a source index byte above 9 is the only check that can fail after the length
(60_exceptions.md R192). -/
theorem takesFault_of_src_index {i : Instr} {s : State} {r : Byte} (hd : i.form.dst = .none)
    (hs : i.form.src = .register r) (hf : ¬ PastTop s i.length) (hr : 9 < r.toNat) : TakesFault i s .registerIndex := by
  refine exec_of_src_error (loc := .reg 0) (fitsAt_of_not_pastTop hf) (by rw [hd]; rfl) ?_
  rw [hs]
  exact congrArg (Except.map s.reg) (regIndex_of_gt hr)

/-! ## The handler -/

/-- An unrecognized number does nothing (60_exceptions.md R198). -/
theorem intHandler_of_unrecognized {v : Word} (s : State) (h : serviceOf v = none) :
    intHandler s v = .ok (HandlerOut.idle s) := by
  simp only [intHandler, h]

/-- A recognized number calls its service once; the answer is the direct write of `R[0]` (42_int.md R110). -/
theorem intHandler_of_service {v : Word} {service : Service} (s : State) (h : serviceOf v = some service) :
    intHandler s v = .ok { HandlerOut.idle s with
      dst := (s.ports.nextAnswer service s.regs).getD (s.reg 0), r0 := s.ports.nextAnswer service s.regs,
      ports := s.ports.callService service s.regs } := by
  simp only [intHandler, h]

/-! ## The effect -/

/-- What `int` leaves for an unrecognized number: PC advanced, and nothing else. -/
theorem intEffect_of_unrecognized {v : Word} (s : State) (n : Nat) (h : serviceOf v = none) :
    IntEffect v n s (s.setPc (trunc16 (s.pc.toNat + n))) :=
  ⟨fun _ hs => by simp [h] at hs, fun _ => ⟨rfl, rfl⟩, fun _ _ => rfl, rfl, advanced_setPc s s n, fun _ => rfl, rfl⟩

/-- What `int` leaves for a recognized number: the call recorded, its answer in `R[0]` when there is one, PC advanced. -/
theorem intEffect_of_service {v : Word} {service : Service} (s : State) (n : Nat) (h : serviceOf v = some service) :
    IntEffect v n s ((applyR0 (s.setPorts (s.ports.callService service s.regs))
      (s.ports.nextAnswer service s.regs)).setPc (trunc16 (s.pc.toNat + n))) := by
  refine ⟨fun service' h' => ?called, fun hnone => by simp [h] at hnone, fun j hj => applyR0_reg_ne _ _ hj,
    applyR0_flags _ _, advanced_setPc s _ n, byteAt_congr (applyR0_mem _ _), applyR0_fault _ _⟩
  case called =>
    obtain rfl : service = service' := Option.some.inj (h.symm.trans h')
    refine ⟨_, rfl, applyR0_ports _ _, fun hnone => ?_, fun w hw => ?_⟩
    · rw [hnone]
      rfl
    · rw [hw, State.setPc_reg]
      exact State.reg_setReg_self _ 0 w

/-- Both forms of `int` complete with the effect of the number in their source (42_int.md R110). -/
theorem int_completes {i : Instr} {s : State} {v : Word} (hm : i.form.mnemonic = .int) (hd : i.form.dst = .none)
    (hf : ¬ PastTop s i.length) (hs : resolveSrc s i.form.src = .ok v) : Completes i s (IntEffect v i.length s) := by
  have hrun {out : HandlerOut} (hh : intHandler s v = .ok out) (ht : out.target = none) :=
    exec_of_dst_none hd (fitsAt_of_not_pastTop hf) hs (hm ▸ hh : handlerOf i.form.mnemonic s v = .ok out) ht
  cases hv : serviceOf v with
  | none => exact ⟨_, hrun (intHandler_of_unrecognized s hv) rfl, intEffect_of_unrecognized s i.length hv⟩
  | some service => exact ⟨_, hrun (intHandler_of_service s hv) rfl, intEffect_of_service s i.length hv⟩

/-- Settles O26: the source is the number itself, so the length is the only check. -/
theorem intImmediateDispatches : Obligations.IntImmediateDispatches :=
  ⟨fun _ => rfl, fun n => faultsPastTop_length (.intImm n), fun n _ hf => int_completes (i := .intImm n) rfl rfl hf rfl⟩

/-- Settles O27: after the length, the index byte either faults or gives the number. -/
theorem intRegisterDispatches : Obligations.IntRegisterDispatches :=
  ⟨fun _ => rfl, fun r => faultsPastTop_length (.intReg r),
    fun r _ hf hr => takesFault_of_src_index (i := .intReg r) rfl rfl hf hr,
    fun r s hf => int_completes (i := .intReg (indexByte r)) rfl rfl hf (resolveSrc_indexByte s r)⟩

end Sys2Proof.Machine

/-! Compare family (43_cmp.md): `cmp` with an immediate and with a register. First the four flags, by how the two words compare;
then the one effect of both forms. The length check and the register source are those of the interrupt family. -/

namespace Sys2Proof.Machine

open Sys2Proof

/-! ## The four flags -/

/-- Comparing words for equality, with each other and with zero, is comparing their numbers (43_cmp.md R120). -/
theorem Flags.compare_eq_of_toNat (f : Flags) (r v : Word) :
    f.compare r v = { f with
      greater := decide (v.toNat < r.toNat), less := decide (r.toNat < v.toNat),
      equal := decide (r.toNat = v.toNat), zero := decide (r.toNat = 0) } := by
  have hzero : r.toNat = 0 ↔ r = 0x0000 := BitVec.toNat_inj (y := 0x0000)
  simp only [Flags.compare, BitVec.toNat_inj, hzero]

/-- Exactly one of GREATER, LESS and EQUAL is set, and never ZERO with GREATER: nothing is below zero. -/
theorem Flags.compare_combinations (f : Flags) (r v : Word) :
    ((f.compare r v).greater, (f.compare r v).less, (f.compare r v).equal, (f.compare r v).zero) ∈
      [(true, false, false, false), (false, true, false, false), (false, true, false, true), (false, false, true, false),
       (false, false, true, true)] := by
  rw [Flags.compare_eq_of_toNat]
  rcases Nat.lt_trichotomy r.toNat v.toNat with hlt | heq | hgt
  · cases decide (r.toNat = 0) <;> simp [hlt, hlt.ne, hlt.le]
  · cases decide (r.toNat = 0) <;> simp [heq]
  · have hz : r.toNat ≠ 0 := Nat.ne_zero_of_lt hgt
    simp [hgt, hgt.ne', hgt.le, hz]

/-! ## The effect -/

/-- What `cmp` leaves: the flags of the comparison, PC advanced, and nothing else (43_cmp.md R120). -/
theorem cmpEffect_of_compare (v : Word) (n : Nat) (s : State) :
    CmpEffect v n s ((s.setFlags (s.flags.compare (s.reg 0) v)).setPc (trunc16 (s.pc.toNat + n))) :=
  ⟨Flags.compare_eq_of_toNat _ _ _, Flags.compare_combinations s.flags (s.reg 0) v, fun _ => rfl, advanced_setPc s _ n,
    fun _ => rfl, rfl, rfl⟩

/-- Both forms of `cmp` complete with the effect of the word in their source (43_cmp.md R120). -/
theorem cmp_completes {i : Instr} {s : State} {v : Word} (hm : i.form.mnemonic = .cmp) (hd : i.form.dst = .none)
    (hf : ¬ PastTop s i.length) (hs : resolveSrc s i.form.src = .ok v) : Completes i s (CmpEffect v i.length s) := by
  have hh : handlerOf i.form.mnemonic s v = .ok { HandlerOut.idle s with flags := s.flags.compare (s.reg 0) v } := by
    rw [hm]
    rfl
  exact ⟨_, exec_of_dst_none hd (fitsAt_of_not_pastTop hf) hs hh rfl, cmpEffect_of_compare v i.length s⟩

/-- Settles O28: the immediate is the source itself, so the length is the only check. -/
theorem cmpImmediateSetsFourFlags : Obligations.CmpImmediateSetsFourFlags :=
  ⟨fun _ => rfl, fun v => faultsPastTop_length (.cmpImm v), fun v _ hf => cmp_completes (i := .cmpImm v) rfl rfl hf rfl⟩

/-- Settles O29: after the length, the index byte either faults or gives the register compared. -/
theorem cmpRegisterSetsFourFlags : Obligations.CmpRegisterSetsFourFlags :=
  ⟨fun _ => rfl, fun r => faultsPastTop_length (.cmpReg r),
    fun r _ hf hr => takesFault_of_src_index (i := .cmpReg r) rfl rfl hf hr,
    fun r s hf => cmp_completes (i := .cmpReg (indexByte r)) rfl rfl hf (resolveSrc_indexByte s r)⟩

end Sys2Proof.Machine

/-! Move family (44_mov.md): the four forms of `mov` into a register and the two into memory. First the operands, as they
resolve and as they fault, for any instruction; then one effect for the loading forms and one for the storing forms; last the
round trip through a pointer cell, from the statements of the forms it runs. -/

namespace Sys2Proof.Machine

open Sys2Proof

/-! ## Register operands -/

/-- A good index byte as a destination is its register (40_execution_cycle.md R84). -/
theorem resolveDst_indexByte (s : State) (d : Fin 10) : resolveDst s (.register (indexByte d)) = .ok (.reg d) :=
  congrArg (Except.map Loc.reg) (regIndex_indexByte d)

/-- A destination index byte above 9 faults right after the length check (60_exceptions.md R192). -/
theorem takesFault_of_dst_index {i : Instr} {s : State} {d : Byte} (hdst : i.form.dst = .register d)
    (hf : ¬ PastTop s i.length) (hd : 9 < d.toNat) : TakesFault i s .registerIndex := by
  refine exec_of_dst_error (fitsAt_of_not_pastTop hf) ?_
  rw [hdst]
  exact congrArg (Except.map Loc.reg) (regIndex_of_gt hd)

/-- A source index byte above 9 faults once the destination has resolved (60_exceptions.md R192). -/
theorem takesFault_of_src_index_of_dst_ok {i : Instr} {s : State} {r : Byte} {loc : Loc}
    (hdst : resolveDst s i.form.dst = .ok loc) (hsrc : i.form.src = .register r) (hf : ¬ PastTop s i.length)
    (hr : 9 < r.toNat) : TakesFault i s .registerIndex := by
  refine exec_of_src_error (fitsAt_of_not_pastTop hf) hdst ?_
  rw [hsrc]
  exact congrArg (Except.map s.reg) (regIndex_of_gt hr)

/-- With two index bytes, either above 9 gives the same fault (30_encoding.md R55). -/
theorem takesFault_of_either_index {i : Instr} {s : State} {d r : Byte} (hdst : i.form.dst = .register d)
    (hsrc : i.form.src = .register r) (hf : ¬ PastTop s i.length) (h : 9 < d.toNat ∨ 9 < r.toNat) :
    TakesFault i s .registerIndex := by
  by_cases hd : 9 < d.toNat
  · exact takesFault_of_dst_index hdst hf hd
  · have hok : resolveDst s i.form.dst = .ok (.reg ⟨d.toNat, by omega⟩) := by
      rw [hdst]
      exact congrArg (Except.map Loc.reg) (regIndex_of_le (Nat.not_lt.mp hd))
    exact takesFault_of_src_index_of_dst_ok hok hsrc hf (h.resolve_left hd)

/-! ## Memory operands -/

/-- A 16-bit read at the last address would touch 0x10000 (20_memory.md R31). -/
theorem memRead2_top (s : State) : memRead2 s (0xFFFF : Word).toNat = .error .addressRange :=
  if_pos (by decide)

/-- What is done with the word in a pointer cell faults when the cell lies at 0xFFFF, or when it holds 0xFFFF and that address
is refused: the rule of both pointer operands (40_execution_cycle.md R84, R85). -/
theorem pointer_faults {α : Type} {s : State} {p : Word} {access : Word → Except FaultKind α}
    (h : p = 0xFFFF ∨ s.wordAt p.toNat = 0xFFFF) (htop : access 0xFFFF = .error .addressRange) :
    memRead2 s p.toNat >>= access = .error .addressRange := by
  rcases memRead2_word_cases s p with ⟨-, hr⟩ | ⟨hne, a, hr, ha⟩
  · exact congrArg (· >>= access) hr
  · have hcell : s.wordAt p.toNat = 0xFFFF := h.resolve_left fun hp => hne (congrArg BitVec.toNat hp)
    obtain rfl : a = 0xFFFF := BitVec.eq_of_toNat_eq (ha.trans hcell)
    exact (congrArg (· >>= access) hr).trans htop

/-- A good pointer cell reads as an address below the last. -/
theorem memRead2_pointer {s : State} {p : Word} (hp : p ≠ 0xFFFF) (hcell : s.wordAt p.toNat ≠ 0xFFFF) :
    ∃ a : Word, memRead2 s p.toNat = .ok a ∧ a.toNat = s.wordAt p.toNat ∧ a ≠ 0xFFFF := by
  obtain ⟨a, hr, ha⟩ := memRead2_in_range s (succ_le_of_ne_top hp)
  exact ⟨a, hr, ha, fun h => hcell (ha.symm.trans (congrArg BitVec.toNat h))⟩

/-- A source through a pointer cell is the word at the address in the cell (40_execution_cycle.md R85). -/
theorem resolveSrc_memoryPointer {s : State} {p : Word} (hp : p ≠ 0xFFFF) (hcell : s.wordAt p.toNat ≠ 0xFFFF) :
    ∃ v, resolveSrc s (.memoryPointer p) = .ok v ∧ v.toNat = s.wordAt (s.wordAt p.toNat) := by
  obtain ⟨a, hr, ha, hne⟩ := memRead2_pointer hp hcell
  obtain ⟨v, hv, hval⟩ := memRead2_in_range s (succ_le_of_ne_top hne)
  have hread : resolveSrc s (.memoryPointer p) = memRead2 s a.toNat :=
    congrArg (· >>= fun w : Word => memRead2 s w.toNat) hr
  exact ⟨v, hread.trans hv, ha ▸ hval⟩

/-! ## The loading forms -/

/-- What a `mov` into a register leaves: its word there, PC advanced, and nothing else (44_mov.md R130). -/
theorem loadEffect_of_setReg (d : Fin 10) (v : Word) (n : Nat) (s : State) :
    LoadEffect d v.toNat n s ((s.setReg d v).setPc (trunc16 (s.pc.toNat + n))) :=
  ⟨congrArg BitVec.toNat (State.reg_setReg_self s d v), fun j hj => State.reg_setReg_ne s d j v hj, rfl,
    advanced_setPc s _ n, fun _ => rfl, rfl, rfl⟩

/-- Every loading form of `mov` completes with the word in its source (44_mov.md R131 to R134). -/
theorem mov_loads {i : Instr} {s : State} {d : Fin 10} {v : Word} (hm : i.form.mnemonic = .mov)
    (hdst : i.form.dst = .register (indexByte d)) (hf : ¬ PastTop s i.length) (hs : resolveSrc s i.form.src = .ok v) :
    Completes i s (LoadEffect d v.toNat i.length s) := by
  have hloc : resolveDst s i.form.dst = .ok (.reg d) := hdst ▸ resolveDst_indexByte s d
  have hh : handlerOf i.form.mnemonic s v = .ok { HandlerOut.idle s with dst := v } := by
    rw [hm]
    rfl
  exact ⟨_, exec_of_parts (fitsAt_of_not_pastTop hf) hloc hs hh rfl, loadEffect_of_setReg d v i.length s⟩

/-- Settles O30: the immediate is the source itself, so after the length only the index byte is checked. -/
theorem movImmediateLoadsRegister : Obligations.MovImmediateLoadsRegister :=
  ⟨fun _ _ => rfl, fun d v => faultsPastTop_length (.movRegImm d v),
    fun d v _ hf hd => takesFault_of_dst_index (i := .movRegImm d v) rfl hf hd,
    fun d v _ hf => mov_loads (i := .movRegImm (indexByte d) v) rfl rfl hf rfl⟩

/-- Settles O31: either index byte faults, and two good ones name the registers of the copy. -/
theorem movRegisterCopies : Obligations.MovRegisterCopies :=
  ⟨fun _ _ => rfl, fun d r => faultsPastTop_length (.movRegReg d r),
    fun d r _ hf h => takesFault_of_either_index (i := .movRegReg d r) rfl rfl hf h,
    fun d r s hf => mov_loads (i := .movRegReg (indexByte d) (indexByte r)) rfl rfl hf (resolveSrc_indexByte s r)⟩

/-- Settles O32: the read is in range at every address but the last. -/
theorem movMemoryLoadsRegister : Obligations.MovMemoryLoadsRegister := by
  refine ⟨fun _ _ => rfl, fun d a => faultsPastTop_length (.movRegMem d a),
    fun d a _ hf hd => takesFault_of_dst_index (i := .movRegMem d a) rfl hf hd,
    fun d s hf => exec_of_src_error (fitsAt_of_not_pastTop hf) (resolveDst_indexByte s d) (memRead2_top s),
    fun d a s hf ha => ?_⟩
  obtain ⟨v, hread, hval⟩ := memRead2_in_range s (succ_le_of_ne_top ha)
  exact hval ▸ mov_loads (i := .movRegMem (indexByte d) a) rfl rfl hf hread

/-- Settles O33: two reads, each in range unless the address it is made at is the last. -/
theorem movPointerLoadsRegister : Obligations.MovPointerLoadsRegister := by
  refine ⟨fun _ _ => rfl, fun d p => faultsPastTop_length (.movRegPtr d p),
    fun d p _ hf hd => takesFault_of_dst_index (i := .movRegPtr d p) rfl hf hd,
    fun d p s hf htop => exec_of_src_error (fitsAt_of_not_pastTop hf) (resolveDst_indexByte s d)
      (pointer_faults htop (memRead2_top s)),
    fun d p s hf hp hcell => ?_⟩
  obtain ⟨v, hread, hval⟩ := resolveSrc_memoryPointer hp hcell
  exact hval ▸ mov_loads (i := .movRegPtr (indexByte d) p) rfl rfl hf hread

/-! ## The storing forms -/

/-- What a `mov` to memory leaves: the stored word's two bytes, PC advanced, and nothing else (44_mov.md R130). -/
theorem storeEffect_of_memWrite2 {s u : State} {a : Nat} {v : Word} (n : Nat) (hu : memWrite2 s a v = .ok u)
    (hw : s.mem.wf) : StoreEffect a v n s (u.setPc (trunc16 (s.pc.toNat + n))) := by
  have hbyte := memWrite2_byteAt hu hw
  have hhigh : u.byteAt a = hiByte v := (hbyte a).trans (s.byteAfterStore_self a v)
  have hlow : u.byteAt (a + 1) = loByte v := (hbyte (a + 1)).trans (s.byteAfterStore_succ a v)
  have hword : u.wordAt a = v.toNat := by
    rw [State.wordAt, hhigh, hlow, ← beWord_toNat, beWord_hiByte_loByte]
  obtain ⟨hregs, -, hflags, hquiet⟩ := memWrite2_frame hu
  exact ⟨hword, (congrArg BitVec.toNat hhigh).trans (hiByte_toNat v), (congrArg BitVec.toNat hlow).trans (loByte_toNat v),
    fun b hb hb' => (hbyte b).trans (s.byteAfterStore_of_ne v hb hb'), hregs, hflags, advanced_setPc s u n, hquiet⟩

/-- Both storing forms of `mov` complete with the store of `R[r]` at their address (44_mov.md R135, R136). -/
theorem mov_stores {s : State} {store : Instr} {a : Word} {r : Fin 10} (hw : s.mem.wf) (hf : ¬ PastTop s 4)
    (ha : a ≠ 0xFFFF)
    (hstore : store = .movMemReg a (indexByte r) ∨
      ∃ p : Word, store = .movPtrReg p (indexByte r) ∧ p ≠ 0xFFFF ∧ s.wordAt p.toNat = a.toNat) :
    Completes store s (StoreEffect a.toNat (s.reg r) 4 s) := by
  obtain ⟨u, hu⟩ := memWrite2_in_range s (s.reg r) (succ_le_of_ne_top ha)
  exact ⟨_, exec_storing_mov hf ha hstore hu, storeEffect_of_memWrite2 4 hu hw⟩

/-- Settles O34: the address is the destination, and it is refused only at the last. -/
theorem movStoresToMemory : Obligations.MovStoresToMemory :=
  ⟨fun _ _ => rfl, fun a r => faultsPastTop_length (.movMemReg a r),
    fun r _ hf => exec_of_dst_error (i := .movMemReg 0xFFFF r) (fitsAt_of_not_pastTop hf) rfl,
    fun a r _ hf ha hr => takesFault_of_src_index_of_dst_ok (i := .movMemReg a r) (storeLoc_of_ne ha) rfl hf hr,
    fun _ _ _ hw hf ha => ⟨storeLoc_of_ne ha, mov_stores hw hf ha (.inl rfl)⟩⟩

/-- Settles O35: the cell is read, and its word is the address of the store. -/
theorem movStoresThroughPointer : Obligations.MovStoresThroughPointer := by
  refine ⟨fun _ _ => rfl, fun p r => faultsPastTop_length (.movPtrReg p r),
    fun p r _ hf htop => exec_of_dst_error (i := .movPtrReg p r) (fitsAt_of_not_pastTop hf) (pointer_faults htop rfl),
    fun p r s hf hp hcell hr => ?badIndex, fun p r s hw hf hp hcell => ?stores⟩
  case badIndex =>
    obtain ⟨a, -, ha, hne⟩ := memRead2_pointer hp hcell
    exact takesFault_of_src_index_of_dst_ok (i := .movPtrReg p r) (resolveDst_memoryPointer hp ha.symm hne) rfl hf hr
  case stores =>
    obtain ⟨a, -, ha, hne⟩ := memRead2_pointer hp hcell
    exact ⟨a, resolveDst_memoryPointer hp ha.symm hne, ha, mov_stores hw hf hne (.inr ⟨p, rfl, hp, ha.symm⟩)⟩

/-! ## The round trip through a pointer cell -/

/-- Every instruction keeps memory canonical. -/
theorem exec_wf {i : Instr} {s t : State} (h : exec i s = .next t) (hw : s.mem.wf) : t.mem.wf := by
  rcases exec_cases h with ⟨k, rfl, -⟩ | ⟨loc, v, out, -, -, -, hc⟩
  · exact hw
  · exact commit_wf hc hw

/-- A store elsewhere leaves the 16-bit number at an address. -/
theorem SameMemBut.wordAt_eq {s t : State} {a b : Nat} (h : SameMemBut b s t) (hsep : a + 1 < b ∨ b + 1 < a) :
    t.wordAt a = s.wordAt a := by
  rw [State.wordAt, State.wordAt, h a (by omega) (by omega), h (a + 1) (by omega) (by omega)]

/-- Settles O36: the second store leaves the value at `a` and puts `a` into the cell, where the load finds it. -/
theorem pointerRoundTripYieldsTheValue : Obligations.PointerRoundTripYieldsTheValue := by
  intro s a p i j k hw hpc ha hp hj hsep
  obtain ⟨-, -, -, -, stores⟩ := movStoresToMemory
  obtain ⟨-, -, -, -, loads⟩ := movPointerLoadsRegister
  obtain ⟨-, t, ht, htword, -, -, -, htregs, -, htpc, -⟩ := stores a i s hw (by omega) ha
  replace htpc : t.pc.toNat = s.pc.toNat + 4 := htpc.trans (Nat.mod_eq_of_lt (by omega))
  obtain ⟨-, u, hu, huword, -, -, humem, huregs, -, hupc, -⟩ := stores p j t (exec_wf ht hw) (by omega) hp
  replace hupc : u.pc.toNat = s.pc.toNat + 8 := by rw [hupc, htpc, Nat.mod_eq_of_lt (by omega)]
  have hcell : u.wordAt p.toNat = a.toNat := by rw [huword, htregs, hj]
  have hvalue : u.wordAt a.toNat = (s.reg i).toNat := (humem.wordAt_eq hsep).trans htword
  have hcell_ne : u.wordAt p.toNat ≠ 0xFFFF := hcell ▸ fun h => ha (BitVec.eq_of_toNat_eq h)
  obtain ⟨w, hrun, hload, hwregs, -⟩ := loads k p u (by omega) hp hcell_ne
  refine ⟨t, u, w, ht, hu, hrun, BitVec.eq_of_toNat_eq ?_, fun r hr => ?_⟩
  · rw [hload, hcell, hvalue]
  · rw [hwregs r hr, huregs, htregs]

end Sys2Proof.Machine

/-! Arithmetic family (45_arith.md): `inc`, `dec`, `add`, `sub`, `mul`, `div`, `shl` and `shr`. First the number and the
flags each handler delivers, from the exact integer it truncates; then what any instruction of format RR does with a delivered
number. The length check and the register operands are those of the interrupt and move families. -/

namespace Sys2Proof.Machine

open Sys2Proof

/-! ## Flags and truncation of an exact result -/

/-- A number is above 0xFFFF as an integer exactly when it is as a natural number (45_arith.md R150). -/
theorem Flags.setOverflow_natCast (f : Flags) (n : Nat) :
    f.setOverflow (n : Int) = { f with overflow := decide (0xFFFF < n) } := by
  have habove : (n : Int) > 0xFFFF ↔ 0xFFFF < n := by omega
  simp only [Flags.setOverflow, habove]

/-- A difference is negative exactly when it borrows (45_arith.md R150). -/
theorem Flags.setUnderflow_sub (f : Flags) (a b : Nat) :
    f.setUnderflow ((a : Int) - b) = { f with underflow := decide (a < b) } := by
  have hborrow : (a : Int) - b < 0 ↔ a < b := by omega
  simp only [Flags.setUnderflow, hborrow]

theorem trunc16_toNat_of_lt {n : Nat} (h : n < 65536) : (trunc16 (n : Int)).toNat = n :=
  (trunc16_toNat n).trans (Nat.mod_eq_of_lt h)

/-- The truncation of a difference of 16-bit numbers: where it borrows, 65536 is added once. -/
theorem trunc16_sub_toNat {a b : Nat} (ha : a < 65536) (hb : b < 65536) :
    (trunc16 ((a : Int) - b)).toNat = if a < b then a + 65536 - b else a - b := by
  have htrunc := trunc16_toInt ((a : Int) - b)
  split <;> omega

/-! ## What each handler delivers -/

/-- A handler succeeds with the number `n` for its destination and the flags `f`, and does nothing else: no direct write, no
jump, no call of a collaborator (40_execution_cycle.md R86). -/
def Delivers (h : Handler) (s : State) (src : Word) (n : Nat) (f : Flags) : Prop :=
  ∃ v : Word, v.toNat = n ∧ h s src = .ok { HandlerOut.idle s with dst := v, flags := f }

/-- The handlers that assign OVERFLOW deliver the low half of their exact result (45_arith.md R141, R143, R145). -/
theorem delivers_of_overflow {h : Handler} {s : State} {src : Word} {n : Nat}
    (hh : h s src = .ok { HandlerOut.idle s with dst := trunc16 (n : Int), flags := s.flags.setOverflow n }) :
    Delivers h s src (n % 65536) { s.flags with overflow := decide (0xFFFF < n) } :=
  ⟨_, trunc16_toNat n, Flags.setOverflow_natCast s.flags n ▸ hh⟩

/-- The handlers that assign UNDERFLOW deliver the truncated difference (45_arith.md R142, R144). -/
theorem delivers_of_underflow {h : Handler} {s : State} {src : Word} {a b : Nat} (ha : a < 65536) (hb : b < 65536)
    (hh : h s src = .ok { HandlerOut.idle s with
      dst := trunc16 ((a : Int) - b), flags := s.flags.setUnderflow ((a : Int) - b) }) :
    Delivers h s src (if a < b then a + 65536 - b else a - b) { s.flags with underflow := decide (a < b) } :=
  ⟨_, trunc16_sub_toNat ha hb, Flags.setUnderflow_sub s.flags a b ▸ hh⟩

/-- A 16-bit number plus one passes 0xFFFF only from 0xFFFF. -/
theorem incHandler_delivers (s : State) (src : Word) : Delivers incHandler s src ((src.toNat + 1) % 65536)
    { s.flags with overflow := decide (src.toNat = 0xFFFF) } := by
  have hover : 0xFFFF < src.toNat + 1 ↔ src.toNat = 0xFFFF := by
    have := src.isLt
    omega
  simpa only [hover] using delivers_of_overflow (h := incHandler) (s := s) (src := src) (n := src.toNat + 1) rfl

/-- A number minus one borrows only from zero. -/
theorem decHandler_delivers (s : State) (src : Word) : Delivers decHandler s src
    (if src.toNat = 0 then 0xFFFF else src.toNat - 1) { s.flags with underflow := decide (src.toNat = 0) } := by
  have hborrow : (if src.toNat = 0 then src.toNat + 65536 - 1 else src.toNat - 1) =
      if src.toNat = 0 then 0xFFFF else src.toNat - 1 := by
    split <;> omega
  simpa only [Nat.lt_one_iff, hborrow] using
    delivers_of_underflow (h := decHandler) (s := s) src.isLt (show 1 < 65536 by decide) rfl

theorem addHandler_delivers (s : State) (src : Word) : Delivers addHandler s src
    (((s.reg 0).toNat + src.toNat) % 65536)
    { s.flags with overflow := decide (0xFFFF < (s.reg 0).toNat + src.toNat) } :=
  delivers_of_overflow rfl

theorem subHandler_delivers (s : State) (src : Word) : Delivers subHandler s src
    (if (s.reg 0).toNat < src.toNat then (s.reg 0).toNat + 65536 - src.toNat else (s.reg 0).toNat - src.toNat)
    { s.flags with underflow := decide ((s.reg 0).toNat < src.toNat) } :=
  delivers_of_underflow (s.reg 0).isLt src.isLt rfl

theorem mulHandler_delivers (s : State) (src : Word) : Delivers mulHandler s src
    (((s.reg 0).toNat * src.toNat) % 65536)
    { s.flags with overflow := decide (0xFFFF < (s.reg 0).toNat * src.toNat) } :=
  delivers_of_overflow rfl

/-- A quotient is at most its dividend, so truncation keeps it. -/
theorem divHandler_delivers (s : State) {src : Word} (h : src ≠ 0x0000) :
    Delivers divHandler s src ((s.reg 0).toNat / src.toNat) s.flags :=
  ⟨_, trunc16_toNat_of_lt ((Nat.div_le_self _ _).trans_lt (s.reg 0).isLt), if_neg h⟩

/-- A zero divisor faults (45_arith.md R146). -/
theorem divHandler_zero (s : State) : divHandler s 0x0000 = .error .divideByZero :=
  if_pos rfl

theorem shlHandler_delivers (s : State) (src : Word) : Delivers shlHandler s src ((2 * src.toNat) % 65536) s.flags :=
  ⟨trunc16 (src.toNat * 2 : Nat), by rw [trunc16_toNat, Nat.mul_comm], rfl⟩

theorem shrHandler_delivers (s : State) (src : Word) : Delivers shrHandler s src (src.toNat / 2) s.flags :=
  ⟨_, trunc16_toNat_of_lt ((Nat.div_le_self _ _).trans_lt src.isLt), rfl⟩

/-! ## The form they share -/

/-- Two register operands make three bytes (30_encoding.md R51). -/
theorem Instr.length_of_registers {i : Instr} {m : Mnemonic} {d r : Byte} (h : i.form = ⟨m, .register d, .register r⟩) :
    i.length = 3 := by
  rw [Instr.length, h]
  rfl

/-- An instruction whose handler faults takes that fault, once both its operands have passed (60_exceptions.md R192). -/
theorem exec_of_handler_error {i : Instr} {s : State} {k : FaultKind} {loc : Loc} {v : Word}
    (hf : fitsAt s i.length = true) (hd : resolveDst s i.form.dst = .ok loc) (hs : resolveSrc s i.form.src = .ok v)
    (hh : handlerOf i.form.mnemonic s v = .error k) : exec i s = .next (s.raiseFault k) := by
  simp only [Instr.length] at hf
  simp [exec_eq_instruction, instruction, attempt, hf, settle, hd, hs, hh, bind, Except.bind]

/-- The effect of an arithmetic instruction: a number in `R[d]`, the flags, PC advanced, and nothing else
(45_arith.md R149). -/
def ArithEffect (d : Fin 10) (n : Nat) (f : Flags) (s t : State) : Prop :=
  (t.reg d).toNat = n ∧ SameRegsBut d s t ∧ t.flags = f ∧ Advanced 3 s t ∧ SameMem s t ∧ Quiet s t

/-- What writeback to a register and the advance leave after the flags. -/
theorem arithEffect_of_setReg (d : Fin 10) (v : Word) (f : Flags) (s : State) :
    ArithEffect d v.toNat f s (((s.setFlags f).setReg d v).setPc (trunc16 (s.pc.toNat + 3))) :=
  ⟨congrArg BitVec.toNat (State.reg_setReg_self (s.setFlags f) d v),
    fun j hj => State.reg_setReg_ne (s.setFlags f) d j v hj, rfl, advanced_setPc s _ 3, fun _ => rfl, rfl, rfl⟩

/-- With good index bytes, the instruction completes with what its handler delivers for the word in `R[r]`. -/
theorem arith_completes {i : Instr} {m : Mnemonic} {s : State} {d r : Fin 10} {n : Nat} {f : Flags}
    (hform : i.form = ⟨m, .register (indexByte d), .register (indexByte r)⟩) (hf : ¬ PastTop s 3)
    (hh : Delivers (handlerOf m) s (s.reg r) n f) : Completes i s (ArithEffect d n f s) := by
  obtain ⟨v, rfl, hout⟩ := hh
  have hlen := Instr.length_of_registers hform
  have hcommit : commit s i.length (.reg d) { HandlerOut.idle s with dst := v, flags := f } =
      .ok (((s.setFlags f).setReg d v).setPc (trunc16 (s.pc.toNat + 3))) := by
    rw [hlen]
    rfl
  have hdst : resolveDst s i.form.dst = .ok (.reg d) := hform ▸ resolveDst_indexByte s d
  have hsrc : resolveSrc s i.form.src = .ok (s.reg r) := hform ▸ resolveSrc_indexByte s r
  exact ⟨_, exec_of_parts (fitsAt_of_not_pastTop (hlen ▸ hf)) hdst hsrc (hform ▸ hout) hcommit,
    arithEffect_of_setReg d v f s⟩

/-- An arithmetic instruction of format RR means what its handler delivers. -/
theorem arithMeans_of_delivers {mk : Byte → Byte → Instr} {op : Byte} {m : Mnemonic} {result : Nat → Nat → Nat}
    {flags : Flags → Nat → Nat → Flags} (henc : ∀ d r, encode (mk d r) = [op, d, r])
    (hform : ∀ d r, (mk d r).form = ⟨m, .register d, .register r⟩)
    (hh : ∀ s src, Delivers (handlerOf m) s src (result (s.reg 0).toNat src.toNat)
      (flags s.flags (s.reg 0).toNat src.toNat)) : ArithMeans mk op result flags := by
  have hlen (d r : Byte) : (mk d r).length = 3 := Instr.length_of_registers (hform d r)
  refine ⟨henc, fun d r => hlen d r ▸ faultsPastTop_length (mk d r), fun d r s hf hidx => ?badIndex,
    fun d r s hf => arith_completes (hform _ _) hf (hh s (s.reg r))⟩
  case badIndex =>
    exact takesFault_of_either_index (congrArg Form.dst (hform d r)) (congrArg Form.src (hform d r)) (hlen d r ▸ hf) hidx

/-! ## The eight instructions -/

/-- Settles O38. -/
theorem incAddsOne : Obligations.IncAddsOne :=
  arithMeans_of_delivers (fun _ _ => rfl) (fun _ _ => rfl) incHandler_delivers

/-- Settles O39. -/
theorem decSubtractsOne : Obligations.DecSubtractsOne :=
  arithMeans_of_delivers (fun _ _ => rfl) (fun _ _ => rfl) decHandler_delivers

/-- Settles O40. -/
theorem addAddsToAccumulator : Obligations.AddAddsToAccumulator :=
  arithMeans_of_delivers (fun _ _ => rfl) (fun _ _ => rfl) addHandler_delivers

/-- Settles O41. -/
theorem subSubtractsFromAccumulator : Obligations.SubSubtractsFromAccumulator :=
  arithMeans_of_delivers (fun _ _ => rfl) (fun _ _ => rfl) subHandler_delivers

/-- Settles O42. -/
theorem mulKeepsTheLowHalf : Obligations.MulKeepsTheLowHalf :=
  arithMeans_of_delivers (fun _ _ => rfl) (fun _ _ => rfl) mulHandler_delivers

/-- Settles O43: the handler is reached, and can fault, only once both index bytes are good. -/
theorem divDividesOrFaults : Obligations.DivDividesOrFaults := by
  refine ⟨fun _ _ => rfl, fun d r => faultsPastTop_length (.div d r),
    fun d r _ hf hidx => takesFault_of_either_index (i := .div d r) rfl rfl hf hidx, fun d r s hf hzero => ?zero,
    fun d r s hf hne => arith_completes (m := .div) rfl hf (divHandler_delivers s hne)⟩
  case zero =>
    have hsrc : resolveSrc s (.register (indexByte r)) = .ok 0x0000 := hzero ▸ resolveSrc_indexByte s r
    exact exec_of_handler_error (i := .div (indexByte d) (indexByte r)) (fitsAt_of_not_pastTop hf)
      (resolveDst_indexByte s d) hsrc (divHandler_zero s)

/-- Settles O44. -/
theorem shlDoubles : Obligations.ShlDoubles :=
  arithMeans_of_delivers (fun _ _ => rfl) (fun _ _ => rfl) shlHandler_delivers

/-- Settles O45. -/
theorem shrHalves : Obligations.ShrHalves :=
  arithMeans_of_delivers (fun _ _ => rfl) (fun _ _ => rfl) shrHandler_delivers

end Sys2Proof.Machine

/-! Jump family (46_jumps.md): nine conditions, each with an immediate and with a register target. First the handler's two
outcomes, by whether the branch is taken, and the one effect of all eighteen; then the two forms; last the truth table. The
length check and the register source are those of the interrupt family. -/

namespace Sys2Proof.Machine

open Sys2Proof

/-! ## The two outcomes -/

/-- Taken, the handler hands on its source as the target, whatever it is (46_jumps.md R160). -/
theorem jumpHandler_of_taken {cond : Flags → Bool} {s : State} (v : Word) (h : cond s.flags = true) :
    jumpHandler cond s v = .ok { HandlerOut.idle s with target := some v } := by
  simp only [jumpHandler, h, if_true]

/-- Not taken, the handler changes nothing, `R[0]` included (40_execution_cycle.md R91). -/
theorem jumpHandler_of_not_taken {cond : Flags → Bool} {s : State} (v : Word) (h : cond s.flags = false) :
    jumpHandler cond s v = .ok (HandlerOut.idle s) := by
  simp only [jumpHandler, h, Bool.false_eq_true, if_false]
  rfl

/-- With a target, a commit makes neither the writeback nor the advance (40_execution_cycle.md R89). -/
theorem commit_idle_target (s : State) (len : Nat) (loc : Loc) (v : Word) :
    commit s len loc { HandlerOut.idle s with target := some v } = .ok (s.setPc v) := rfl

theorem jumpEffect_of_taken {cond : Flags → Bool} {s : State} (n : Nat) (v : Word) (h : cond s.flags = true) :
    JumpEffect cond n v s (s.setPc v) :=
  ⟨fun _ => rfl, fun hnot => absurd (h.symm.trans hnot) (by decide), fun _ => rfl, rfl, fun _ => rfl, rfl, rfl⟩

theorem jumpEffect_of_not_taken {cond : Flags → Bool} {s : State} (n : Nat) (v : Word) (h : cond s.flags = false) :
    JumpEffect cond n v s (s.setPc (trunc16 (s.pc.toNat + n))) :=
  ⟨fun htaken => absurd (h.symm.trans htaken) (by decide), fun _ => advanced_setPc s s n, fun _ => rfl, rfl, fun _ => rfl,
    rfl, rfl⟩

/-- Every jump completes with the effect of its condition on the word in its source (46_jumps.md R160). -/
theorem jump_completes {i : Instr} {s : State} {v : Word} {cond : Flags → Bool}
    (hm : handlerOf i.form.mnemonic = jumpHandler cond) (hd : i.form.dst = .none) (hf : ¬ PastTop s i.length)
    (hs : resolveSrc s i.form.src = .ok v) : Completes i s (JumpEffect cond i.length v s) := by
  have hfits := fitsAt_of_not_pastTop hf
  cases hc : cond s.flags with
  | true =>
    have hloc : resolveDst s i.form.dst = .ok (.reg 0) := by
      rw [hd]
      rfl
    have hh := (congrFun₂ hm s v).trans (jumpHandler_of_taken v hc)
    exact ⟨_, exec_of_parts hfits hloc hs hh (commit_idle_target s _ _ v), jumpEffect_of_taken i.length v hc⟩
  | false =>
    have hh := (congrFun₂ hm s v).trans (jumpHandler_of_not_taken v hc)
    exact ⟨_, exec_of_dst_none hd hfits hs hh rfl, jumpEffect_of_not_taken i.length v hc⟩

/-! ## The two forms -/

/-- A jump with an immediate: the target is the source itself, so the length is the only check (46_jumps.md R181). -/
theorem jumpImmMeans_of_form {mk : Word → Instr} {op : Byte} {m : Mnemonic} {cond : Flags → Bool}
    (henc : ∀ a, encode (mk a) = [op, hiByte a, loByte a]) (hform : ∀ a, (mk a).form = ⟨m, .none, .immediate a⟩)
    (hm : handlerOf m = jumpHandler cond) : JumpImmMeans mk op cond := by
  have hlen (a : Word) : (mk a).length = 3 := by
    rw [Instr.length, hform]
    rfl
  refine ⟨henc, fun a => hlen a ▸ faultsPastTop_length (mk a), fun a s hf => ?completes⟩
  case completes =>
    have hsrc : resolveSrc s (mk a).form.src = .ok a := by
      rw [hform]
      rfl
    rw [← hlen a] at hf ⊢
    exact jump_completes (hform a ▸ hm) (congrArg Form.dst (hform a)) hf hsrc

/-- A jump with a register: after the length the index byte is checked, before the condition is looked at
(46_jumps.md R181). -/
theorem jumpRegMeans_of_form {mk : Byte → Instr} {op : Byte} {m : Mnemonic} {cond : Flags → Bool}
    (henc : ∀ r, encode (mk r) = [op, r]) (hform : ∀ r, (mk r).form = ⟨m, .none, .register r⟩)
    (hm : handlerOf m = jumpHandler cond) : JumpRegMeans mk op cond := by
  have hlen (r : Byte) : (mk r).length = 2 := by
    rw [Instr.length, hform]
    rfl
  have hdst (r : Byte) : (mk r).form.dst = .none := congrArg Form.dst (hform r)
  have hsrc (r : Byte) : (mk r).form.src = .register r := congrArg Form.src (hform r)
  refine ⟨henc, fun r => hlen r ▸ faultsPastTop_length (mk r),
    fun r s hf hr => takesFault_of_src_index (hdst r) (hsrc r) (hlen r ▸ hf) hr, fun r s hf => ?completes⟩
  case completes =>
    rw [← hlen (indexByte r)] at hf ⊢
    exact jump_completes (hform _ ▸ hm) (hdst _) hf ((congrArg (resolveSrc s) (hsrc _)).trans (resolveSrc_indexByte s r))

/-! ## The nine conditions -/

/-- Settles O46: each row names its bytes, its form and the handler of its mnemonic. -/
theorem immediateJumpsGoToTheirTarget : Obligations.ImmediateJumpsGoToTheirTarget :=
  ⟨jumpImmMeans_of_form (m := .jmp) (fun _ => rfl) (fun _ => rfl) rfl,
    jumpImmMeans_of_form (m := .je) (fun _ => rfl) (fun _ => rfl) rfl,
    jumpImmMeans_of_form (m := .jne) (fun _ => rfl) (fun _ => rfl) rfl,
    jumpImmMeans_of_form (m := .jz) (fun _ => rfl) (fun _ => rfl) rfl,
    jumpImmMeans_of_form (m := .jnz) (fun _ => rfl) (fun _ => rfl) rfl,
    jumpImmMeans_of_form (m := .jl) (fun _ => rfl) (fun _ => rfl) rfl,
    jumpImmMeans_of_form (m := .jle) (fun _ => rfl) (fun _ => rfl) rfl,
    jumpImmMeans_of_form (m := .jg) (fun _ => rfl) (fun _ => rfl) rfl,
    jumpImmMeans_of_form (m := .jge) (fun _ => rfl) (fun _ => rfl) rfl⟩

/-- Settles O47: the same nine handlers, with the index byte as the source. -/
theorem registerJumpsGoToTheirTarget : Obligations.RegisterJumpsGoToTheirTarget :=
  ⟨jumpRegMeans_of_form (m := .jmp) (fun _ => rfl) (fun _ => rfl) rfl,
    jumpRegMeans_of_form (m := .je) (fun _ => rfl) (fun _ => rfl) rfl,
    jumpRegMeans_of_form (m := .jne) (fun _ => rfl) (fun _ => rfl) rfl,
    jumpRegMeans_of_form (m := .jz) (fun _ => rfl) (fun _ => rfl) rfl,
    jumpRegMeans_of_form (m := .jnz) (fun _ => rfl) (fun _ => rfl) rfl,
    jumpRegMeans_of_form (m := .jl) (fun _ => rfl) (fun _ => rfl) rfl,
    jumpRegMeans_of_form (m := .jle) (fun _ => rfl) (fun _ => rfl) rfl,
    jumpRegMeans_of_form (m := .jg) (fun _ => rfl) (fun _ => rfl) rfl,
    jumpRegMeans_of_form (m := .jge) (fun _ => rfl) (fun _ => rfl) rfl⟩

/-- The conditions of the truth table's columns as functions of the comparison flags, ZERO having no part in them
(46_jumps.md R160). -/
theorem jumpConditions_eq (f : Flags) :
    [condJmp f, condJe f, condJne f, condJl f, condJle f, condJg f, condJge f] =
      [true, f.equal, !f.equal, f.less, f.less || f.equal, f.greater, f.greater || f.equal] := rfl

/-- Settles O48: the table has one row for each value of the three comparison flags. -/
theorem jumpTruthTable : Obligations.JumpTruthTable := by
  refine fun f => ⟨?rows, rfl⟩
  case rows =>
    rw [jumpConditions_eq]
    generalize f.greater = greater, f.less = less, f.equal = equal
    revert greater less equal
    decide

end Sys2Proof.Machine

/-! Exceptions family (60_exceptions.md): the fixed order of checks, what a fault writes, how Halted is entered, and the
interrupt services. First that the cycle, for any opcode table, answers as its table of checks says, part by part; the
statements about the fault taken and about HALT follow from that. -/

namespace Sys2Proof.Machine

open Sys2Proof

/-! ## Two checks in order -/

theorem answers_of_error {α : Type} {good : α → Prop} (k : FaultKind) : Answers (.error k) (some k) good :=
  ⟨fun _ hk => congrArg Except.error (Option.some.inj hk), nofun⟩

/-- A computation of two parts answers with the first fault of its two rows, in their order (60_exceptions.md R192). -/
theorem Answers.bind {α β : Type} {r : Except FaultKind α} {next : α → Except FaultKind β} {fault fault' : Option FaultKind}
    {good : α → Prop} {good' : β → Prop} (hr : Answers r fault good)
    (hnext : ∀ x, r = .ok x → good x → Answers (next x) fault' good') :
    Answers (r >>= next) (fault.or fault') good' := by
  obtain ⟨hfault, hok⟩ := hr
  cases fault with
  | some k =>
    obtain rfl := hfault k rfl
    exact answers_of_error k
  | none =>
    obtain ⟨x, rfl, hx⟩ := hok rfl
    exact hnext x rfl hx

/-- A second part without a fault of its own leaves the first part's rows as they are. -/
theorem Answers.bind_of_no_fault {α β : Type} {r : Except FaultKind α} {next : α → Except FaultKind β}
    {fault : Option FaultKind} {good : α → Prop} {good' : β → Prop} (hr : Answers r fault good)
    (hnext : ∀ x, r = .ok x → good x → Answers (next x) none good') : Answers (r >>= next) fault good' :=
  Option.or_none (o := fault) ▸ hr.bind hnext

/-! ## Each part of the cycle against its rows -/

/-- A location in memory that is resolved is never the last address (40_execution_cycle.md R84). -/
theorem resolveDstAt_mem {s : State} {mode : DstMode} {at_ : Nat} {a : Word} (h : resolveDstAt s mode at_ = .ok (.mem a)) :
    a.toNat + 1 ≤ 0xFFFF := by
  obtain ⟨_, hd⟩ := resolveDstAt_ok h
  exact resolveDst_mem hd

/-- The number of the register that a good index byte names. -/
theorem srcNumber_register {s : State} {at_ : Nat} {i : Fin 10} (h : i.val = (s.byteAt at_).toNat) :
    srcNumber s .register at_ = (s.reg i).toNat := by
  have hi : (s.byteAt at_).toNat < 10 := h ▸ i.isLt
  simp [srcNumber, State.reg, ← h]

/-- Rows 5 and 6: a source resolves to its number, or takes its fault. -/
theorem resolveSrcAt_answers {s : State} {mode : Mode} {at_ : Nat} (hat : at_ + slen mode ≤ 65536) :
    Answers (resolveSrcAt s mode at_) (srcFault s mode at_) fun v => v.toNat = srcNumber s mode at_ := by
  obtain ⟨hfault, hok⟩ := sourceResolution s mode at_ hat
  refine ⟨hfault, fun hnone => ?_⟩
  obtain ⟨v, hv, hdefault, hreg, himm, hmem, hptr⟩ := hok hnone
  refine ⟨v, hv, ?_⟩
  cases mode with
  | none => exact congrArg BitVec.toNat (hdefault rfl)
  | register =>
    obtain ⟨i, rfl, hi⟩ := hreg rfl
    exact (srcNumber_register hi).symm
  | immediate => exact himm rfl
  | memory => exact hmem rfl
  | memoryPointer => exact hptr rfl

/-- The fault of a handler (row 7): `div` alone has one, with a zero source (45_arith.md R146); every other
outcome keeps the flags that the mnemonic does not write. -/
theorem handlerOf_answers (m : Mnemonic) (s : State) (v : Word) :
    Answers (handlerOf m s v) (if m = .div ∧ v.toNat = 0 then some .divideByZero else none)
      fun out => FlagFrame m s.flags out.flags := by
  refine answers_of_condition ?_
  by_cases hm : m = .div ∧ v.toNat = 0
  · obtain ⟨rfl, hv⟩ := hm
    obtain rfl : v = 0x0000 := BitVec.eq_of_toNat_eq hv
    exact .inl ⟨⟨rfl, rfl⟩, divHandler_zero s⟩
  · obtain ⟨out, hout⟩ : ∃ out, handlerOf m s v = .ok out := by
      cases m
      case div => exact ⟨_, if_neg fun hv => hm ⟨rfl, congrArg BitVec.toNat hv⟩⟩
      case int =>
        cases hv : serviceOf v with
        | none => exact ⟨_, intHandler_of_unrecognized s hv⟩
        | some service => exact ⟨_, intHandler_of_service s hv⟩
      all_goals exact ⟨_, rfl⟩
    exact .inr ⟨hm, out, hout, handlerOf_flags hout⟩

/-- What a completed instruction of mnemonic `m` never does: touch FAULT, or a flag it does not write (10_state.md R16, R17). -/
def CompletionFrame (m : Mnemonic) (s t : State) : Prop := t.fault = s.fault ∧ FlagFrame m s.flags t.flags

theorem CompletionFrame.fault_eq {m : Mnemonic} {s t : State} (h : CompletionFrame m s t) : t.fault = s.fault := h.left

/-- No check is left after the handler: the commit succeeds at every location that resolution gives. -/
theorem commit_answers {m : Mnemonic} {s : State} {len : Nat} {loc : Loc} {out : HandlerOut}
    (hloc : ∀ a, loc = .mem a → a.toNat + 1 ≤ 0xFFFF) (hf : FlagFrame m s.flags out.flags) :
    Answers (commit s len loc out) none (CompletionFrame m s) := by
  cases hc : commit s len loc out with
  | error k => exact absurd hc (commit_ne_error hloc)
  | ok t =>
    obtain ⟨hfault, hflags, -⟩ := commit_fields hc
    exact answers_of_ok rfl ⟨hfault, hflags ▸ hf⟩

/-! ## The table of checks, row by row -/

theorem firstFault_of_empty {T : OpTab} {s : State} (h : T.lookup (s.byteAt s.pc.toNat) = none) :
    firstFault T s = some .unregisteredOpcode := by
  simp only [firstFault, h]

theorem firstFault_of_pastTop {T : OpTab} {s : State} {desc : Descriptor}
    (h : T.lookup (s.byteAt s.pc.toNat) = some desc) (hf : PastTop s (ilen desc.dstMode desc.srcMode)) :
    firstFault T s = some .addressRange := by
  simp only [firstFault, h]
  exact if_pos hf

/-- Rows 3 to 7: destination, source, handler. -/
theorem firstFault_of_fits {T : OpTab} {s : State} {desc : Descriptor}
    (h : T.lookup (s.byteAt s.pc.toNat) = some desc) (hf : ¬ PastTop s (ilen desc.dstMode desc.srcMode)) :
    firstFault T s = (dstFault s desc.dstMode (s.pc.toNat + 1)).or
      ((srcFault s desc.srcMode (s.pc.toNat + 1 + dlen desc.dstMode)).or
        (if desc.mnemonic = .div ∧ srcNumber s desc.srcMode (s.pc.toNat + 1 + dlen desc.dstMode) = 0
          then some .divideByZero else none)) := by
  simp only [firstFault, h]
  rw [if_neg hf]
  cases dstFault s desc.dstMode (s.pc.toNat + 1) with
  | some k => rfl
  | none => cases srcFault s desc.srcMode (s.pc.toNat + 1 + dlen desc.dstMode) <;> rfl

/-! ## The cycle against the whole table -/

theorem cycleAttempt_of_pastTop {T : OpTab} {s : State} {desc : Descriptor}
    (h : T.lookup (s.byteAt s.pc.toNat) = some desc) (hf : PastTop s (ilen desc.dstMode desc.srcMode)) :
    cycleAttempt T s = .error .addressRange := by
  have hop : T.lookup (s.mem.read s.pc.toNat) = some desc := h
  have hfits : fitsAt s (ilen desc.dstMode desc.srcMode) = false := decide_eq_false (Nat.not_le.mpr hf)
  simp [cycleAttempt, memRead1_ok s.pc_le, bind, Except.bind, hop, hfits]

theorem cycleAttempt_of_fits {T : OpTab} {s : State} {desc : Descriptor}
    (h : T.lookup (s.byteAt s.pc.toNat) = some desc) (hf : ¬ PastTop s (ilen desc.dstMode desc.srcMode)) :
    cycleAttempt T s = (do
      let loc ← resolveDstAt s desc.dstMode (s.pc.toNat + 1)
      let src ← resolveSrcAt s desc.srcMode (s.pc.toNat + 1 + dlen desc.dstMode)
      let out ← handlerOf desc.mnemonic s src
      commit s (ilen desc.dstMode desc.srcMode) loc out) := by
  have hop : T.lookup (s.mem.read s.pc.toNat) = some desc := h
  simp [cycleAttempt, memRead1_ok s.pc_le, bind, Except.bind, hop, fitsAt_of_not_pastTop hf]

/-- An instruction that fits takes the first fault of its operands and its handler, or completes. -/
theorem cycleAttempt_answers_of_fits {T : OpTab} {s : State} {desc : Descriptor}
    (h : T.lookup (s.byteAt s.pc.toNat) = some desc) (hf : ¬ PastTop s (ilen desc.dstMode desc.srcMode)) :
    Answers (cycleAttempt T s) (firstFault T s) (CompletionFrame desc.mnemonic s) := by
  have hend : s.pc.toNat + 1 + dlen desc.dstMode + slen desc.srcMode ≤ 65536 := by
    unfold PastTop ilen at hf
    omega
  rw [cycleAttempt_of_fits h hf, firstFault_of_fits h hf]
  refine Answers.bind (destinationResolution s desc.dstMode _ (by omega)) fun loc hloc _ => ?_
  refine Answers.bind (resolveSrcAt_answers hend) fun v _ hv => ?_
  rw [← hv]
  refine (handlerOf_answers desc.mnemonic s v).bind_of_no_fault fun out _ hout => ?_
  exact commit_answers (fun a ha => resolveDstAt_mem (ha ▸ hloc)) hout

/-- The cycle, for any table: the first failing check is the fault; where none fails, the opcode is registered and its
instruction completes (60_exceptions.md R192). -/
theorem cycleAttempt_answers (T : OpTab) (s : State) :
    Answers (cycleAttempt T s) (firstFault T s) fun t =>
      ∃ desc, T.lookup (s.byteAt s.pc.toNat) = some desc ∧ CompletionFrame desc.mnemonic s t := by
  cases h : T.lookup (s.byteAt s.pc.toNat) with
  | none =>
    rw [cycleAttempt_of_unregistered h, firstFault_of_empty h]
    exact answers_of_error _
  | some desc =>
    by_cases hf : PastTop s (ilen desc.dstMode desc.srcMode)
    · rw [cycleAttempt_of_pastTop h hf, firstFault_of_pastTop h hf]
      exact answers_of_error _
    · obtain ⟨hfault, hok⟩ := cycleAttempt_answers_of_fits h hf
      refine ⟨hfault, fun hnone => ?_⟩
      obtain ⟨t, ht, hframe⟩ := hok hnone
      exact ⟨t, ht, desc, rfl, hframe⟩

/-- What a Running core's cycle comes to when a check fails. -/
theorem cycle_of_firstFault {T : OpTab} {s : State} {k : FaultKind} (hr : s.running) (h : firstFault T s = some k) :
    cycle T s = s.raiseFault k := by
  obtain ⟨hfault, -⟩ := cycleAttempt_answers T s
  rw [cycle_of_running hr, hfault k h]
  rfl

/-- What a Running core's cycle keeps when no check fails. -/
theorem cycle_of_no_fault {T : OpTab} {s : State} (hr : s.running) (h : firstFault T s = none) :
    ∃ desc, T.lookup (s.byteAt s.pc.toNat) = some desc ∧ CompletionFrame desc.mnemonic s (cycle T s) := by
  obtain ⟨-, hok⟩ := cycleAttempt_answers T s
  obtain ⟨t, ht, hframe⟩ := hok h
  rw [cycle_of_running hr, ht]
  exact hframe

/-- Settles O15, from the answer of the cycle to its table of checks. -/
theorem firstFailingCheckIsTheFault : Obligations.FirstFailingCheckIsTheFault := by
  refine fun T s hr => ⟨fun k hk => cycle_of_firstFault hr hk, fun hnone => ?_⟩
  obtain ⟨_, -, hframe⟩ := cycle_of_no_fault hr hnone
  exact hframe.fault_eq

/-! ## What a fault writes -/

/-- Settles O14: a step that changes FAULT has not committed, and the fault it takes sets HALT. -/
theorem faultingStepWritesOnlyHaltAndFault : Obligations.FaultingStepWritesOnlyHaltAndFault := by
  intro s t hr hnone h hfault
  rcases step_cases h with ⟨hh, -⟩ | ⟨-, k, rfl⟩ | ⟨-, _, _, _, _, -, -, hc⟩
  · exact absurd (hr.symm.trans hh) (by decide)
  · exact ⟨fun _ => rfl, rfl, fun _ => rfl, rfl, rfl, fun n => haltedCoreNeverChanges _ n rfl⟩
  · obtain ⟨hkeep, -, -⟩ := commit_fields hc
    exact absurd (hkeep.trans hnone) hfault

/-! ## How Halted is entered -/

/-- Rows 3 and 4 name a fault of a kind other than None (10_state.md R17). -/
theorem dstFault_ne_none (s : State) (mode : DstMode) (at_ : Nat) : dstFault s mode at_ ≠ some .none := by
  cases mode <;> simp [dstFault]

/-- Rows 5 and 6 name a fault of a kind other than None (10_state.md R17). -/
theorem srcFault_ne_none (s : State) (mode : Mode) (at_ : Nat) : srcFault s mode at_ ≠ some .none := by
  cases mode <;> simp [srcFault]

/-- No row of the table of checks has the kind None, which stands for no fault at all (10_state.md R17). -/
theorem firstFault_ne_none (T : OpTab) (s : State) : firstFault T s ≠ some .none := by
  cases h : T.lookup (s.byteAt s.pc.toNat) with
  | none => simp [firstFault_of_empty h]
  | some desc =>
    by_cases hf : PastTop s (ilen desc.dstMode desc.srcMode)
    · simp [firstFault_of_pastTop h hf]
    · simp [firstFault_of_fits h hf, Option.or_eq_some_iff, dstFault_ne_none, srcFault_ne_none]

/-- `hlt` is the one writer of HALT among the mnemonics (10_state.md R16). -/
theorem eq_hlt_of_halt_written {m : Mnemonic} (h : .halt ∈ flagsWritten m) : m = .hlt := by
  cases m with
  | hlt => rfl
  | _ => exact absurd h (by decide)

/-- `hlt` has one opcode in the default table (30_encoding.md R62). -/
theorem opcode_of_hlt {op : Byte} {desc : Descriptor} (h : defaultOpTab.lookup op = some desc)
    (hm : desc.mnemonic = .hlt) : op = 0x00 := by
  have one_row : ∀ r ∈ defaultOpTab, r.2.mnemonic = .hlt → r.1 = 0x00 := by decide
  exact one_row _ (OpTab.mem_of_lookup h) hm

/-- An instruction that sets HALT when it completes is `hlt`. -/
theorem CompletionFrame.eq_hlt {m : Mnemonic} {s t : State} (h : CompletionFrame m s t) (hr : s.running)
    (hh : t.flags.halt = true) : m = .hlt := by
  obtain ⟨-, hflags⟩ := h
  refine eq_hlt_of_halt_written ?_
  by_contra hn
  have hkeep : t.flags.halt = s.flags.halt := hflags .halt hn
  exact absurd (hh.symm.trans (hkeep.trans hr)) (by decide)

/-- Settles O55: the step is the spec's cycle, which takes a fault of the table or completes an instruction. -/
theorem haltIsEnteredByHltOrFault : Obligations.HaltIsEnteredByHltOrFault := by
  intro s t hr h hh
  rw [stepIsTheSpecCycle] at h
  cases h
  cases hff : firstFault defaultOpTab s with
  | some k =>
    exact .inr ⟨k, fun hk => firstFault_ne_none defaultOpTab s (hk ▸ hff), cycle_of_firstFault hr hff⟩
  | none =>
    obtain ⟨desc, hop, hframe⟩ := cycle_of_no_fault hr hff
    exact .inl ⟨opcode_of_hlt hop (hframe.eq_hlt hr hh), hframe.fault_eq⟩

/-! ## The interrupt services -/

/-- Settles O24, from what `stdin` and `int` record: the answer they get is the first one fixed. -/
theorem environmentFixesTheAnswers : Obligations.EnvironmentFixesTheAnswers := by
  refine ⟨fun s a rest hin => ?attempt, fun s n service a rest hans hn hf => ?call⟩
  case attempt =>
    refine ⟨_, exec_stdin s, ?_, congrArg List.tail hin⟩
    rw [← Ports.nextInput_cons hin]
    rfl
  case call =>
    obtain ⟨-, -, completes⟩ := intImmediateDispatches
    obtain ⟨t, ht, called, -⟩ := completes n s hf
    obtain ⟨b, hb, hports, hnone, hsome⟩ := called service hn
    obtain rfl : b = a := hb.trans (Ports.nextAnswer_cons hans service s.regs)
    refine ⟨t, ht, by rw [hports], by rw [hports, hans, List.tail_cons], ?_⟩
    cases b with
    | none => exact hnone rfl
    | some w => exact hsome w rfl

/-- Every number above 10 falls past the last row of the map (60_exceptions.md R198). -/
theorem serviceOf_of_gt {n : Word} (h : 10 < n.toNat) : serviceOf n = none := by
  obtain ⟨k, hk⟩ := Nat.exists_eq_add_of_le' h
  unfold serviceOf
  rw [hk]
  rfl

/-- Settles O25: the eleven rows by evaluation, the rest because no row is above 10. -/
theorem serviceNumbering : Obligations.ServiceNumbering :=
  ⟨rfl, fun _ => serviceOf_of_gt⟩

end Sys2Proof.Machine

/-! Reset and host family (70_reset_and_hazards.md): what each host move does to a session. First the bytes of a loaded image, in
memory and around it; then when each move is allowed and the session it gives. -/

namespace Sys2Proof.Machine

open Sys2Proof

/-! ## A run of bytes written -/

theorem Memory.writeBytes_cons {a : Nat} (m : Memory) (b : Byte) (bs : List Byte) (ha : a ≤ 0xFFFF) :
    m.writeBytes a (b :: bs) = (m.write a b).writeBytes (a + 1) bs :=
  if_neg (Nat.not_lt.mpr ha)

theorem Memory.writeBytes_of_pastTop {a : Nat} (m : Memory) (bs : List Byte) (ha : 0xFFFF < a) :
    m.writeBytes a bs = m := by
  cases bs with
  | nil => rfl
  | cons b bs => exact if_pos ha

/-- Below and above the run, every byte reads as before, wherever the run ends. -/
theorem Memory.read_writeBytes_of_outside {m : Memory} {a b : Nat} {bs : List Byte} (hw : m.wf)
    (hb : b < a ∨ a + bs.length ≤ b) : (m.writeBytes a bs).read b = m.read b := by
  induction bs generalizing m a with
  | nil => rfl
  | cons x bs ih =>
    rw [List.length_cons] at hb
    by_cases ha : a ≤ 0xFFFF
    · have hw' : (m.write a x).wf := Memory.write_wf m a x hw (by omega)
      rw [Memory.writeBytes_cons m x bs ha, ih hw' (by omega), Memory.read_write_ne m a b x hw (by omega)]
    · rw [Memory.writeBytes_of_pastTop m (x :: bs) (Nat.lt_of_not_le ha)]

/-- A run that ends at or below 0xFFFF stands in memory byte by byte: a later byte of it overwrites no earlier one. -/
theorem Memory.read_writeBytes_getElem {m : Memory} {a : Nat} {bs : List Byte} (hw : m.wf) (hfit : a + bs.length ≤ 65536)
    {k : Nat} (hk : k < bs.length) : (m.writeBytes a bs).read (a + k) = bs[k] := by
  induction bs generalizing m a k with
  | nil => exact absurd hk (Nat.not_lt_zero k)
  | cons x bs ih =>
    have hfit' : a + 1 + bs.length ≤ 65536 := by
      rw [List.length_cons] at hfit
      omega
    have hw' : (m.write a x).wf := Memory.write_wf m a x hw (by omega)
    rw [Memory.writeBytes_cons m x bs (by omega)]
    cases k with
    | zero =>
      calc ((m.write a x).writeBytes (a + 1) bs).read a
        _ = (m.write a x).read a := Memory.read_writeBytes_of_outside hw' (.inl (Nat.lt_add_one a))
        _ = x := Memory.read_write_self m a x hw
    | succ k =>
      calc ((m.write a x).writeBytes (a + 1) bs).read (a + (k + 1))
        _ = ((m.write a x).writeBytes (a + 1) bs).read (a + 1 + k) := congrArg _ (by omega)
        _ = bs[k]'(Nat.lt_of_succ_lt_succ hk) := ih hw' hfit' (Nat.lt_of_succ_lt_succ hk)

/-! ## The host's load -/

@[simp] theorem State.load_reg (s : State) (base : Word) (image : List Byte) (entry : Word) (i : Fin 10) :
    (s.load base image entry).reg i = s.reg i := rfl

@[simp] theorem State.load_pc (s : State) (base : Word) (image : List Byte) (entry : Word) :
    (s.load base image entry).pc = entry := rfl

@[simp] theorem State.load_flags (s : State) (base : Word) (image : List Byte) (entry : Word) :
    (s.load base image entry).flags = s.flags := rfl

@[simp] theorem State.load_fault (s : State) (base : Word) (image : List Byte) (entry : Word) :
    (s.load base image entry).fault = s.fault := rfl

@[simp] theorem State.load_ports (s : State) (base : Word) (image : List Byte) (entry : Word) :
    (s.load base image entry).ports = s.ports := rfl

/-- Each byte of an image that fits stands at its place (70_reset_and_hazards.md R222). -/
theorem State.load_byteAt_image {s : State} {base : Word} {image : List Byte} (entry : Word) (hw : s.mem.wf)
    (hfit : base.toNat + image.length ≤ 65536) {k : Nat} (hk : k < image.length) :
    (s.load base image entry).byteAt (base.toNat + k) = image[k] :=
  Memory.read_writeBytes_getElem hw hfit hk

/-- The load writes nothing but the image (70_reset_and_hazards.md R223). -/
theorem State.load_byteAt_of_outside {s : State} {base : Word} {image : List Byte} {b : Nat} (entry : Word) (hw : s.mem.wf)
    (hb : b < base.toNat ∨ base.toNat + image.length ≤ b) : (s.load base image entry).byteAt b = s.byteAt b :=
  Memory.read_writeBytes_of_outside hw hb

/-! ## The host's moves -/

theorem Session.move_reset (h : Session) : h.move .reset = some ⟨h.core.reinit, false⟩ := rfl

theorem Session.move_step {h : Session} {t : State} (ht : step h.core = .next t) : h.move .step = some ⟨t, true⟩ := by
  simp only [Session.move, ht]

theorem Session.move_load_of_stepped {h : Session} (base entry : Word) (image : List Byte) (hs : h.stepped = true) :
    h.move (.load base image entry) = none :=
  if_pos hs

theorem Session.move_load_of_not_stepped {h : Session} (base entry : Word) (image : List Byte) (hs : h.stepped = false) :
    h.move (.load base image entry) = some ⟨h.core.load base image entry, false⟩ :=
  if_neg (Bool.eq_false_iff.mp hs)

/-- Settles O60, move by move: a step is never refused because the core always answers a next state. -/
theorem hostLoadsOnlyBeforeTheFirstStep : Obligations.HostLoadsOnlyBeforeTheFirstStep := by
  refine ⟨Session.move_reset, fun h => ?step, fun h base entry image => Session.move_load_of_stepped base entry image,
    fun h base entry image hw hfit hs => ?load⟩
  case step =>
    obtain ⟨t, ht⟩ := step_next h.core
    exact ⟨t, ht, Session.move_step ht⟩
  case load =>
    exact ⟨_, Session.move_load_of_not_stepped base entry image hs, rfl, State.load_pc _ _ _ _,
      fun _ hk => State.load_byteAt_image entry hw hfit hk, fun _ hb => State.load_byteAt_of_outside entry hw hb,
      State.load_reg _ _ _ _, State.load_flags _ _ _ _, State.load_fault _ _ _ _, State.load_ports _ _ _ _⟩

end Sys2Proof.Machine
